-- ==== Sys2Proof/Word.lean ====
section
/-! DEFINITION. The word types of the block (00_scope.md R5 to R7) and the value of a command's S field. -/

namespace Sys2Proof

/-- A value of the datapath width `W = 32` (R5): a register of the window, an index, a permuted value. -/
abbrev Word := BitVec 32

/-- A seed, of width `SW = 64` (R6). -/
abbrev Seed := BitVec 64

/-- A round count or a round index, of width `RW = 16` (R7). -/
abbrev RoundIdx := BitVec 16

/-- The seed source `S = CMD[4]` of `CONFIG` (30_encoding.md R92): 0 is the latched staging seed, 1 is one draw of
`ENTROPY`. -/
inductive SeedSource where
  | staging
  | entropy
deriving DecidableEq, Repr

end Sys2Proof
end

