-- ==== Sys2Proof/Syntax.lean ====
section
/-! DEFINITION. The commands of the block (30_encoding.md R96), one constructor per row of spec/opcode_table.json. Only
`S` and `RIDX` are operands in the word (R95); their widths are in the types, so every term is a command. -/

namespace Sys2Proof

/-- A command. -/
inductive Instr where
  /-- OPC 0x0 (R176). -/
  | nop
  /-- OPC 0x1 (R177); `src` is the S field (R92). -/
  | config (src : SeedSource)
  /-- OPC 0x2 (R180). -/
  | get
  /-- OPC 0x3 (R181). -/
  | iterStart
  /-- OPC 0x4 (R182). -/
  | iterNext
  /-- OPC 0x5 (R153). -/
  | cipher
  /-- OPC 0x6 (R125); `r` is the RIDX field (R94). -/
  | mix (r : RoundIdx)
deriving DecidableEq, Repr

end Sys2Proof
end

