-- ==== Sys2Proof/Machine/Bus.lean ====
section
/-! DEFINITION. The host's side of the block as syntax: the registers of the window, bus accesses of any width and
offset, the operations of a host program, and the turns of the environment. -/

namespace Sys2Proof.Machine

/-- The registers of the window (20_memory.md R66), by name. -/
inductive Reg where
  | cmd | status | cfgN | cfgRounds | cfgSeedLo | cfgSeedHi | operand
  | result | resultIdx | walks
  | n | k | rounds | seedLo | seedHi | iterIdx | caps
deriving DecidableEq, Repr

/-- An offset in the window, 8 bits (R60). -/
abbrev Offset := BitVec 8

/-- The width of a bus access in bits (R63). -/
inductive AccessWidth where
  | w8 | w16 | w32 | w64
deriving DecidableEq, Repr

/-- The data of a write, of the access's own width. -/
inductive BusData where
  | byte (v : BitVec 8)
  | half (v : BitVec 16)
  | word (v : Word)
  | double (v : BitVec 64)
deriving DecidableEq, Repr

/-- One bus access by the host, admitted or not. -/
inductive Access where
  | read (off : Offset) (width : AccessWidth)
  | write (off : Offset) (data : BusData)
deriving DecidableEq, Repr

/-- An operation of a host program (30_encoding.md R102), and any bus access beside them, so that a program may also
make accesses that the block refuses. -/
inductive HostOp where
  /-- `wr REG, v` -/
  | wr (reg : Reg) (v : Word)
  /-- `rd REG` -/
  | rd (reg : Reg)
  /-- `issue c` -/
  | issue (c : Instr)
  /-- `wait` -/
  | wait
  /-- a bus access of any offset and width -/
  | access (a : Access)
deriving DecidableEq, Repr

/-- A normal response of the bus to an admitted access (R68), as the host sees it. -/
inductive Response where
  | written (reg : Reg)
  | value (reg : Reg) (v : Word)
deriving DecidableEq, Repr

/-- Who moves next in the single total order of R71: the host makes an access, the engine takes its step, or the
platform asserts reset (70_reset_and_hazards.md R250). -/
inductive Turn where
  | host | engine | reset
deriving DecidableEq, Repr

end Sys2Proof.Machine
end

