-- ==== Sys2Proof/Config.lean ====
section
/-! DEFINITION. The configuration parameters that a model takes as an argument (00_scope.md section 3), this block's
values that need no definition of the machine, and the samples of the entropy port, which are free. -/

namespace Sys2Proof

/-- A round function `MIX` (R9): any total function of the value, the round index and the seed (41_round_mixer.md
R120). -/
abbrev MixFn := Word → RoundIdx → Seed → Word

/-- The configuration parameters (00_scope.md R8, R9; 93_implementation_defined.md section 1): an argument of the machine,
which one machine never changes. This block's values are `Machine.block`. The widths W, SW and RW are fixed by the types
(log entry 8). -/
structure Params where
  /-- `MIX` (R9) -/
  mix : MixFn
  /-- `DEFAULT_ROUNDS` (R8) -/
  defaultRounds : RoundIdx

namespace Config

/-- This block's `DEFAULT_ROUNDS` (R8). -/
def defaultRounds : RoundIdx := 4

/-- `CAPS` (10_state.md R39): `W = 0x20` in bits 7:0, `MIXID = 1` in bits 15:8, zero above. -/
def caps : Word := 0x0000_0120

/-- FREE VALUE (log entry 1). The sample that the entropy port gives at the n-th draw since the start (R12): nothing
constrains it, and no claim may rest on a value of it (43_cycle_walk_iterator.md R179). -/
opaque entropy : Nat → Seed

end Config

end Sys2Proof
end

