-- ==== Sys2Proof/Machine/MixRef.lean ====
section
/-! DEFINITION. `MIX_REF` (41_round_mixer.md section 2), the mixer of this hardware, and the parameters of this block. -/

namespace Sys2Proof.Machine

/-- `fmix32` (R123). The constant factors stand on the left, so that comparing two terms never counts one down. -/
def fmix32 (x : Word) : Word :=
  let x := x ^^^ (x >>> 16)
  let x := 0x85EBCA6B#32 * x
  let x := x ^^^ (x >>> 13)
  let x := 0xC2B2AE35#32 * x
  x ^^^ (x >>> 16)

/-- `MIX_REF` (R122). `r + 1` is in `[1, 65536]` and so is exact in 32 bits. -/
def mixRef (v : Word) (r : RoundIdx) (s : Seed) : Word :=
  let t0 := (v ^^^ s.extractLsb' 0 32) + 0x9E3779B9#32 * (r.setWidth 32 + 1)
  let t1 := fmix32 t0
  fmix32 (t1 ^^^ s.extractLsb' 32 32)

/-- The parameters of this block, `W32-S64-R16-MIXREF` (00_scope.md R2, R8, R9). -/
def block : Params := { mix := mixRef, defaultRounds := Config.defaultRounds }

end Sys2Proof.Machine
end

