-- ==== Sys2Proof/Machine/State.lean ====
section
/-! DEFINITION. The state of the block (10_state.md R20), grouped as R20 groups it, and beside it the environment that
drives the block: the host's program, the schedule of turns, the host's responses and the position of the entropy port.
Also the reasons a step can stop, and the state after reset. -/

namespace Sys2Proof.Machine

/-- The outcome codes of `STATUS.ERR` (60_exceptions.md R213). Codes 9 to 15 are never written and have no name. -/
inductive ErrCode where
  | none
  | invalidDomain
  | invalidRoundCount
  | outOfRange
  | notConfigured
  | illegalCommand
  | iterNotActive
  | iterEnd
  | walkCapExceeded
deriving DecidableEq, Repr

/-- The staging registers (R23 to R27). -/
structure Staging where
  cfgN : Word
  /-- `ROUNDS_IN`, bits 15:0 of `CFG_ROUNDS`; bits 31:16 have no storage (R24). -/
  cfgRounds : RoundIdx
  cfgSeedLo : Word
  cfgSeedHi : Word
  operand : Word
deriving DecidableEq, Repr

/-- The active configuration (R28 to R32). -/
structure Active where
  n : Word
  k : BitVec 6
  rounds : RoundIdx
  seedLo : Word
  seedHi : Word
  valid : Bool
deriving DecidableEq, Repr

/-- The result registers (R33 to R35). -/
structure Results where
  result : Word
  resultIdx : Word
  walks : Word
deriving DecidableEq, Repr

/-- The iterator (R36, R37). -/
structure Iterator where
  idx : Word
  active : Bool
deriving DecidableEq, Repr

/-- The stored status bits that are no part of another group (R38). `BUSY` is `Pend.valid` (R41). -/
structure StatusBits where
  overrun : Bool
  fatal : Bool
  err : ErrCode
deriving DecidableEq, Repr

/-- The pending-command latch `PEND` (R41). While `valid` is false no rule reads the other fields
(70_reset_and_hazards.md R252; log entry 2). -/
structure Pend where
  valid : Bool
  cmd : Word
  n : Word
  rounds : RoundIdx
  seed : Seed
  op : Word
deriving DecidableEq, Repr

/-- The environment, the model's own (log entries 3 and 12): what the host is still to do, whose turns come next, and
what the host has been answered, newest first. -/
structure HostSide where
  program : List HostOp
  schedule : List Turn
  responses : List Response
deriving DecidableEq, Repr

/-- The whole state. -/
structure State where
  staging : Staging
  active : Active
  results : Results
  iter : Iterator
  status : StatusBits
  pend : Pend
  /-- How many samples of `ENTROPY` have been drawn: the index of the next free value (log entry 1). -/
  draws : Nat
  host : HostSide
deriving DecidableEq, Repr

/-- Why the machine stops with a fault. -/
inductive Fault where
  /-- `BUS_ERROR(offset, width)` (20_memory.md R69): raised by a host access that is not 32 bits wide, is misaligned or
  is at a reserved offset. It has no effect on the block. Safe (log entry 6). -/
  | busError (off : Offset) (width : AccessWidth)
deriving DecidableEq, Repr

/-- Why an instruction is refused. -/
inductive Refusal where
  /-- Raised by an arm of `exec` whose instruction has no meaning yet. Safe. No arm does so now. -/
  | notModelled (mnemonic : String)
deriving DecidableEq, Repr

/-- The outcome of a step. -/
abbrev Result := Host.Outcome State Fault Refusal

/-- The state right after reset (70_reset_and_hazards.md R251), for any parameters. The fields of `PEND` other than `valid` are unspecified
there: DESIGN CHOICE zero, never read (log entry 2). The environment is empty: DESIGN CHOICE (log entries 1, 3, 12). -/
def State.resetWith (p : Params) : State where
  staging :=
    { cfgN := 0, cfgRounds := p.defaultRounds, cfgSeedLo := 0, cfgSeedHi := 0, operand := 0 }
  active := { n := 0, k := 0, rounds := 0, seedLo := 0, seedHi := 0, valid := false }
  results := { result := 0, resultIdx := 0, walks := 0 }
  iter := { idx := 0, active := false }
  status := { overrun := false, fatal := false, err := .none }
  pend := { valid := false, cmd := 0, n := 0, rounds := 0, seed := 0, op := 0 }
  draws := 0
  host := { program := [], schedule := [], responses := [] }

/-- The state of this block right after reset. -/
def State.reset : State := State.resetWith block

end Sys2Proof.Machine
end

