-- ==== Sys2Proof/Machine/Ops.lean ====
section
/-! DEFINITION. The named operations: masks and bit lengths (00_scope.md R13), the updates of State that commands and
accesses are made of, and the three ways in which a command completes (60_exceptions.md R210, R214, R217). The block has
no trap entry and no return from one (R219, R220): an error is an outcome code, and `raise` is its one operation. -/

namespace Sys2Proof.Machine

/-- `mask(w) = 2^w - 1` (R13). -/
def mask (w : Nat) : Word := BitVec.ofNat 32 (2 ^ w - 1)

/-- `bitlen(x)`, the number of bits of `x` with no leading zeros (R13). -/
def bitlen (x : Nat) : Nat := if x = 0 then 0 else Nat.log2 x + 1

/-- `BUSY`, which is `PEND.VALID` (10_state.md R38, R41). -/
def State.busy (s : State) : Bool := s.pend.valid

/-- `SEED = SEED_HI : SEED_LO` (10_state.md R31). -/
def Active.seed (a : Active) : Seed := a.seedHi ++ a.seedLo

/-- `CFG_SEED = CFG_SEED_HI : CFG_SEED_LO` (10_state.md R26). -/
def Staging.seed (g : Staging) : Seed := g.cfgSeedHi ++ g.cfgSeedLo

/-- Acceptance (60_exceptions.md R210, 10_state.md R41): the latch captures the command word and the staging registers,
and `BUSY <- 1`. Nothing else changes. -/
def State.accept (w : Word) (s : State) : State :=
  { s with
    pend :=
      { valid := true, cmd := w, n := s.staging.cfgN, rounds := s.staging.cfgRounds, seed := s.staging.seed,
        op := s.staging.operand } }

/-- The writes that every completion ends with: `ERR <- e` and `BUSY <- 0` (60_exceptions.md R210, R215). -/
def State.finish (e : ErrCode) (s : State) : State :=
  { s with status := { s.status with err := e }, pend := { s.pend with valid := false } }

/-- `FATAL <- 1`. -/
def State.markFatal (s : State) : State := { s with status := { s.status with fatal := true } }

/-- `OVERRUN <- b`. -/
def State.setOverrun (b : Bool) (s : State) : State := { s with status := { s.status with overrun := b } }

/-- The result registers, written together (10_state.md R33 to R35). -/
def State.writeResults (value idx walks : Word) (s : State) : State :=
  { s with results := { result := value, resultIdx := idx, walks := walks } }

/-- The active configuration, written by a successful `CONFIG`, which makes it valid (10_state.md R28 to R32). -/
def State.install (n : Word) (k : BitVec 6) (rounds : RoundIdx) (seed : Seed) (s : State) : State :=
  { s with
    active :=
      { n := n, k := k, rounds := rounds, seedLo := seed.extractLsb' 0 32, seedHi := seed.extractLsb' 32 32,
        valid := true } }

/-- The iterator. -/
def State.setIter (idx : Word) (active : Bool) (s : State) : State := { s with iter := { idx := idx, active := active } }

/-- One more sample of `ENTROPY` has been drawn (log entry 1). -/
def State.countDraw (s : State) : State := { s with draws := s.draws + 1 }

/-- The staging registers. -/
def State.setStaging (g : Staging) (s : State) : State := { s with staging := g }

/-- The host has had a response. -/
def State.respond (r : Response) (s : State) : State :=
  { s with host := { s.host with responses := r :: s.host.responses } }

/-- What is left of the host's program. -/
def State.setProgram (p : List HostOp) (s : State) : State := { s with host := { s.host with program := p } }

/-- What is left of the schedule. -/
def State.setSchedule (ts : List Turn) (s : State) : State := { s with host := { s.host with schedule := ts } }

/-- Whose turn it is. Where the schedule says nothing, the engine steps if its step is enabled
(70_reset_and_hazards.md R257), else the host moves (log entry 3). -/
def State.turn (s : State) : Turn :=
  match s.host.schedule with
  | [] => if s.busy then .engine else .host
  | t :: _ => t

/-- The state with that turn taken off the schedule. -/
def State.dropTurn (s : State) : State := s.setSchedule s.host.schedule.tail

/-- Reset (70_reset_and_hazards.md R250): every element of the block takes its reset value and no entropy is drawn. The
environment is not part of the block and stays (log entry 13). -/
def State.resetBlock (p : Params) (s : State) : State := { State.resetWith p with draws := s.draws, host := s.host }

/-- A command completes with `ERR = NONE`. -/
def succeed (s : State) : Result := .next (s.finish .none)

/-- `raise e` (R214): `ERR <- e` and `BUSY <- 0` are the only writes. -/
def raise (e : ErrCode) (s : State) : Result := .next (s.finish e)

/-- `fatal e` (R217): as `raise e`, and `FATAL <- 1`. -/
def fatal (e : ErrCode) (s : State) : Result := .next (s.markFatal.finish e)

end Sys2Proof.Machine
end

