-- ==== Sys2Proof/Machine/Operands.lean ====
section
/-! DEFINITION. Operand assembly (30_encoding.md R95): every operand outside the command word comes from the latch, as an
unsigned value of its register's width. -/

namespace Sys2Proof.Machine

/-- `i` of `GET` (R180). -/
def State.getIndex (s : State) : Word := s.pend.op

/-- `x` of `CIPHER` (42_domain_cipher.md R153). -/
def State.cipherInput (s : State) : Word := s.pend.op

/-- `v` of `MIX` (41_round_mixer.md R125). -/
def State.mixValue (s : State) : Word := s.pend.op

/-- `n` of `CONFIG` (R177). -/
def State.configN (s : State) : Word := s.pend.n

/-- `rounds` of `CONFIG` (R177). -/
def State.configRounds (s : State) : RoundIdx := s.pend.rounds

/-- The seed of a `CONFIG` that passed validation (R92, R179): the latched staging seed, or one draw of `ENTROPY`. -/
def State.configSeed (src : SeedSource) (s : State) : Seed :=
  match src with
  | .staging => s.pend.seed
  | .entropy => Config.entropy s.draws

/-- The state after that seed was taken: a draw samples the port once, and the latched seed draws nothing (R179). -/
def State.afterSeed (src : SeedSource) (s : State) : State :=
  match src with
  | .staging => s
  | .entropy => s.countDraw

end Sys2Proof.Machine
end

