-- ==== Sys2Proof/Machine/Mixer.lean ====
section
/-! DEFINITION. The Round Mixer unit (41_round_mixer.md): the command `MIX`. The command and the cipher use the one `MIX`
of the parameters (R126). -/

namespace Sys2Proof.Machine

/-- `MIX` (R125), for any parameters. -/
def execMixWith (p : Params) (r : RoundIdx) (s : State) : Result :=
  if s.active.valid = false then raise .notConfigured s
  else succeed (s.writeResults (p.mix s.mixValue r s.active.seed) s.mixValue 0)

/-- `MIX` (R125) of this block. -/
def execMix (r : RoundIdx) (s : State) : Result := execMixWith block r s

end Sys2Proof.Machine
end

