-- ==== Sys2Proof/Machine/DomainCipher.lean ====
section
/-! DEFINITION. The Domain Cipher unit (42_domain_cipher.md): the bit width, the Feistel network for any round function,
its inverse, and the command `CIPHER`. -/

namespace Sys2Proof.Machine

/-- `kbits(n)` (R140): 0 for `n = 1`, else `bitlen(n - 1)`. It is never evaluated at 0. -/
def kbits (n : Word) : BitVec 6 := BitVec.ofNat 6 (if n = 1 then 0 else bitlen (n.toNat - 1))

/-- `a = ceil(k/2)` (R141). -/
def widthHi (k : Nat) : Nat := (k + 1) >>> 1

/-- `b = floor(k/2)` (R141). -/
def widthLo (k : Nat) : Nat := k >>> 1

/-- The round state `(L, R, wL, wR)` (R143). It lives within one engine step only (10_state.md R44). -/
structure Halves where
  l : Word
  r : Word
  wl : Nat
  wr : Nat
deriving DecidableEq, Repr

/-- Two halves of widths `wl` and `wr` from a word: `L` is the high part, `R` the low `wr` bits. -/
def splitAt (wl wr : Nat) (x : Word) : Halves := { l := x >>> wr, r := x &&& mask wr, wl := wl, wr := wr }

/-- The split (R142). -/
def split (k : Nat) (x : Word) : Halves := splitAt (widthHi k) (widthLo k) x

/-- One round (R144, R145). -/
def feistelRound (m : MixFn) (seed : Seed) (r : Nat) (h : Halves) : Halves :=
  { l := h.r, r := h.l ^^^ (m h.r (BitVec.ofNat 16 r) seed &&& mask h.wl), wl := h.wr, wr := h.wl }

/-- The rounds `r, r + 1, …`, `count` of them, in that order (R146). -/
def roundsFrom (m : MixFn) (seed : Seed) : (count r : Nat) → Halves → Halves
  | 0, _, h => h
  | count + 1, r, h => roundsFrom m seed count (r + 1) (feistelRound m seed r h)

/-- Recombination with the current widths (R147). -/
def recombine (h : Halves) : Word := (h.l <<< h.wr) ||| h.r

/-- The cipher `F` (R148) for a round function `m`, a bit width, a round count and a seed. -/
def cipher (m : MixFn) (k rounds : Nat) (seed : Seed) (x : Word) : Word :=
  recombine (roundsFrom m seed rounds 0 (split k x))

/-- One round undone (R151). -/
def feistelUnround (m : MixFn) (seed : Seed) (r : Nat) (h : Halves) : Halves :=
  { l := h.r ^^^ (m h.l (BitVec.ofNat 16 r) seed &&& mask h.wr), r := h.l, wl := h.wr, wr := h.wl }

/-- The rounds `count - 1` down to 0, undone in that order (R151). -/
def unrounds (m : MixFn) (seed : Seed) : (count : Nat) → Halves → Halves
  | 0, h => h
  | count + 1, h => unrounds m seed count (feistelUnround m seed count h)

/-- The inverse `Finv` (R151), which no command computes. -/
def cipherInv (m : MixFn) (k rounds : Nat) (seed : Seed) (y : Word) : Word :=
  let h := if rounds % 2 = 0 then splitAt (widthHi k) (widthLo k) y else splitAt (widthLo k) (widthHi k) y
  recombine (unrounds m seed rounds h)

/-- `F` under the active configuration, shared by `CIPHER` and the walk (R154). -/
def State.F (p : Params) (s : State) (x : Word) : Word :=
  cipher p.mix s.active.k.toNat s.active.rounds.toNat s.active.seed x

/-- `CIPHER` (R153), for any parameters. -/
def execCipherWith (p : Params) (s : State) : Result :=
  if s.active.valid = false then raise .notConfigured s
  else if 2 ^ s.active.k.toNat ≤ s.cipherInput.toNat then raise .outOfRange s
  else succeed (s.writeResults (s.F p s.cipherInput) s.cipherInput 1)

/-- `CIPHER` (R153) of this block. -/
def execCipher (s : State) : Result := execCipherWith block s

end Sys2Proof.Machine
end

