-- ==== Sys2Proof/Machine/CycleWalk.lean ====
section
/-! DEFINITION. The Ranged Permutation unit (43_cycle_walk_iterator.md): the walk, and the commands `NOP`, `CONFIG`,
`GET`, `ITER_START` and `ITER_NEXT`. -/

namespace Sys2Proof.Machine

/-- `WALK_CAP(N, K) = 2^K - N + 1` (R171). -/
def walkCap (n : Word) (k : BitVec 6) : Nat := 2 ^ k.toNat - n.toNat + 1

/-- The loop of R171: `v` is the walked value, `c` the applications so far, and `left` how many more the cap allows.
The answer is `none` where the cap fires. -/
def walkLoop (f : Word → Word) (n : Word) : (left : Nat) → (v : Word) → (c : Nat) → Option (Word × Nat)
  | left, v, c =>
    if v.toNat < n.toNat then some (v, c)
    else match left with
      | 0 => none
      | left + 1 => walkLoop f n left (f v) (c + 1)

/-- `walk(i)` (R171): the value and the walk length, or `none` for the fatal branch. -/
def State.walk (p : Params) (s : State) (i : Word) : Option (Word × Nat) :=
  walkLoop (s.F p) s.active.n (walkCap s.active.n s.active.k - 1) (s.F p i) 1

/-- `NOP` (R176). -/
def execNop (s : State) : Result := succeed s

/-- `CONFIG` (R177 to R179). -/
def execConfig (src : SeedSource) (s : State) : Result :=
  if s.configN = 0 then raise .invalidDomain s
  else if s.configRounds = 0 then raise .invalidRoundCount s
  else
    succeed <|
      ((s.afterSeed src).install s.configN (kbits s.configN) s.configRounds (s.configSeed src)).setIter 0 false

/-- `GET` (R180), for any parameters. -/
def execGetWith (p : Params) (s : State) : Result :=
  if s.active.valid = false then raise .notConfigured s
  else if s.active.n.toNat ≤ s.getIndex.toNat then raise .outOfRange s
  else match s.walk p s.getIndex with
    | none => fatal .walkCapExceeded s
    | some (v, c) => succeed (s.writeResults v s.getIndex (BitVec.ofNat 32 c))

/-- `GET` (R180) of this block. -/
def execGet (s : State) : Result := execGetWith block s

/-- `ITER_START` (R181). -/
def execIterStart (s : State) : Result :=
  if s.active.valid = false then raise .notConfigured s
  else succeed (s.setIter 0 true)

/-- `ITER_NEXT` (R182), for any parameters. -/
def execIterNextWith (p : Params) (s : State) : Result :=
  if s.active.valid = false then raise .notConfigured s
  else if s.iter.active = false then raise .iterNotActive s
  else if s.active.n.toNat ≤ s.iter.idx.toNat then raise .iterEnd s
  else match s.walk p s.iter.idx with
    | none => fatal .walkCapExceeded s
    | some (v, c) =>
      succeed ((s.writeResults v s.iter.idx (BitVec.ofNat 32 c)).setIter (s.iter.idx + 1) s.iter.active)

/-- `ITER_NEXT` (R182) of this block. -/
def execIterNext (s : State) : Result := execIterNextWith block s

end Sys2Proof.Machine
end

