-- ==== Sys2Proof/Machine/Dispatch.lean ====
section
/-! DEFINITION. The dispatch: one arm per command, each one call of its meaning. `exec i s` is the completion of a
pending command that decodes to `i` (60_exceptions.md R210). -/

namespace Sys2Proof.Machine

def exec (i : Instr) (s : State) : Host.Outcome State Fault Refusal :=
  match i with
  | .nop => Sys2Proof.Machine.execNop s
  | .config src => Sys2Proof.Machine.execConfig src s
  | .get => Sys2Proof.Machine.execGet s
  | .iterStart => Sys2Proof.Machine.execIterStart s
  | .iterNext => Sys2Proof.Machine.execIterNext s
  | .cipher => Sys2Proof.Machine.execCipher s
  | .mix r => Sys2Proof.Machine.execMix r s

end Sys2Proof.Machine
end

