-- ==== Sys2Proof/WellFormed.lean ====
section
/-! DEFINITION. What is well formed: a command word (by the opcode table's match and mask), a bus access (by its width
and offset) and a host operation. Written apart from the decoder and from the register window, so that each can be held
against the other. -/

namespace Sys2Proof

/-- A row of spec/opcode_table.json: a word belongs to it if its bits under `mask` are `bits`. -/
structure TableRow where
  bits : Word
  mask : Word
deriving DecidableEq, Repr

/-- The table's row of each command, in the table's order. -/
def opcodeTable : List TableRow :=
  [⟨0x00000000, 0xFFFFFFFF⟩, ⟨0x00000001, 0xFFFFFFEF⟩, ⟨0x00000002, 0xFFFFFFFF⟩, ⟨0x00000003, 0xFFFFFFFF⟩,
   ⟨0x00000004, 0xFFFFFFFF⟩, ⟨0x00000005, 0xFFFFFFFF⟩, ⟨0x00000006, 0x0000FFFF⟩]

/-- The row of a command. -/
def Instr.row : Instr → TableRow
  | .nop => ⟨0x00000000, 0xFFFFFFFF⟩
  | .config _ => ⟨0x00000001, 0xFFFFFFEF⟩
  | .get => ⟨0x00000002, 0xFFFFFFFF⟩
  | .iterStart => ⟨0x00000003, 0xFFFFFFFF⟩
  | .iterNext => ⟨0x00000004, 0xFFFFFFFF⟩
  | .cipher => ⟨0x00000005, 0xFFFFFFFF⟩
  | .mix _ => ⟨0x00000006, 0x0000FFFF⟩

/-- A word belongs to a row. -/
def TableRow.holds (row : TableRow) (w : Word) : Bool := w &&& row.mask == row.bits

/-- The legal words (30_encoding.md R96): those of some row. -/
def legalWord (w : Word) : Bool := opcodeTable.any (·.holds w)

namespace Machine

/-- The width of a write's data. -/
def BusData.width : BusData → AccessWidth
  | .byte _ => .w8
  | .half _ => .w16
  | .word _ => .w32
  | .double _ => .w64

/-- The offset of an access. -/
def Access.off : Access → Offset
  | .read off _ => off
  | .write off _ => off

/-- The width of an access. -/
def Access.width : Access → AccessWidth
  | .read _ width => width
  | .write _ data => data.width

/-- An access that the block admits (20_memory.md R63, R67): 32 bits wide, at a multiple of 4, at or below 0x40. -/
def Access.wellFormed (a : Access) : Bool :=
  a.width == .w32 && a.off.toNat % 4 == 0 && decide (a.off.toNat ≤ 0x40)

/-- A host operation that the bus never refuses. -/
def HostOp.wellFormed : HostOp → Bool
  | .wr _ _ => true
  | .rd _ => true
  | .issue _ => true
  | .wait => true
  | .access a => a.wellFormed

end Machine

end Sys2Proof
end

