-- ==== Sys2Proof/Decode.lean ====
section
/-! DEFINITION. The decoder (30_encoding.md R97), total on all words and rejecting by name, and the encoder, written from
the format of R90 and the map of R96. -/

namespace Sys2Proof

/-- Why a word is ILLEGAL. The block itself makes no difference between them (R98); the names are the model's. -/
inductive IllegalReason where
  /-- `RSV != 0` (R93) -/
  | reservedBits
  /-- `S != 0` in a command that does not use it (R90) -/
  | seedSource
  /-- `RIDX != 0` in a command that does not use it (R90) -/
  | roundIndex
  /-- `OPC` is 0x7 to 0xF (R98) -/
  | reservedOpcode
deriving DecidableEq, Repr

/-- What the decoder answers. -/
inductive Decoded where
  | legal (i : Instr)
  | illegal (why : IllegalReason)
deriving DecidableEq, Repr

/-- The instruction, if the word is legal. -/
def Decoded.instr? : Decoded → Option Instr
  | .legal i => some i
  | .illegal _ => none

/-- `OPC = CMD[3:0]` (R91). -/
def opcField (w : Word) : BitVec 4 := w.extractLsb' 0 4

/-- `S = CMD[4]` (R92). -/
def sField (w : Word) : BitVec 1 := w.extractLsb' 4 1

/-- `RSV = CMD[15:5]` (R93). -/
def rsvField (w : Word) : BitVec 11 := w.extractLsb' 5 11

/-- `RIDX = CMD[31:16]` (R94). -/
def ridxField (w : Word) : BitVec 16 := w.extractLsb' 16 16

/-- The value of the S field as a seed source (R92). -/
def seedSourceOf (b : BitVec 1) : SeedSource := if b = 0 then .staging else .entropy

/-- The S field of a seed source (R92). -/
def seedSourceBit : SeedSource → BitVec 1
  | .staging => 0
  | .entropy => 1

/-- A command that uses neither S nor RIDX: both must be 0. -/
def decodePlain (i : Instr) (s : BitVec 1) (ridx : BitVec 16) : Decoded :=
  if s ≠ 0 then .illegal .seedSource
  else if ridx ≠ 0 then .illegal .roundIndex
  else .legal i

/-- The decoder on the four fields (R97). -/
def decodeFields (opc : BitVec 4) (s : BitVec 1) (rsv : BitVec 11) (ridx : BitVec 16) : Decoded :=
  if rsv ≠ 0 then .illegal .reservedBits
  else match opc.toNat with
    | 0x0 => decodePlain .nop s ridx
    | 0x1 => if ridx ≠ 0 then .illegal .roundIndex else .legal (.config (seedSourceOf s))
    | 0x2 => decodePlain .get s ridx
    | 0x3 => decodePlain .iterStart s ridx
    | 0x4 => decodePlain .iterNext s ridx
    | 0x5 => decodePlain .cipher s ridx
    | 0x6 => if s ≠ 0 then .illegal .seedSource else .legal (.mix ridx)
    | _ => .illegal .reservedOpcode

/-- `decode` (R97). It looks at the word and at nothing else (R100). -/
def decode (w : Word) : Decoded := decodeFields (opcField w) (sField w) (rsvField w) (ridxField w)

/-- A word of the one format, from its fields, high bits first (R90). -/
def wordOfFields (ridx : BitVec 16) (rsv : BitVec 11) (s : BitVec 1) (opc : BitVec 4) : Word :=
  ridx ++ rsv ++ s ++ opc

/-- The word of a command (R96). -/
def encode : Instr → Word
  | .nop => wordOfFields 0 0 0 0x0
  | .config src => wordOfFields 0 0 (seedSourceBit src) 0x1
  | .get => wordOfFields 0 0 0 0x2
  | .iterStart => wordOfFields 0 0 0 0x3
  | .iterNext => wordOfFields 0 0 0 0x4
  | .cipher => wordOfFields 0 0 0 0x5
  | .mix r => wordOfFields r 0 0 0x6

/-- The command word of an opcode-table row's bits: `w` read as `nbits` bits, zero above (a command is exactly one
32-bit word, R100). -/
def tableWord (nbits w : Nat) : Word := BitVec.ofNat 32 (w % 2 ^ nbits)

/-- The instruction that the decoder reads from a row's bits. -/
def decodeTableWord (nbits w : Nat) : Option Instr := (decode (tableWord nbits w)).instr?

/-- Byte lane `j` of a register carries its bits `[8j+7 : 8j]` (20_memory.md R62). -/
def byteLane (w : Word) (j : Nat) : BitVec 8 := w.extractLsb' (8 * j) 8

/-- A register from its four byte lanes, lane 0 the lowest (20_memory.md R62). -/
def wordOfLanes (b0 b1 b2 b3 : BitVec 8) : Word := b3 ++ b2 ++ b1 ++ b0

end Sys2Proof
end

