-- ==== Sys2Proof/Machine/Flags.lean ====
section
/-! DEFINITION. `STATUS` (10_state.md R38): the codes of `ERR`, the computed bit `EXHAUSTED`, and the word that a read
returns. No command tests any of them (R22). -/

namespace Sys2Proof.Machine

/-- The code of an outcome (60_exceptions.md R213). -/
def ErrCode.code : ErrCode → BitVec 4
  | .none => 0
  | .invalidDomain => 1
  | .invalidRoundCount => 2
  | .outOfRange => 3
  | .notConfigured => 4
  | .illegalCommand => 5
  | .iterNotActive => 6
  | .iterEnd => 7
  | .walkCapExceeded => 8

/-- `EXHAUSTED = ITER_ACTIVE AND (ITER_IDX >= N)`. -/
def State.exhausted (s : State) : Bool := s.iter.active && decide (s.active.n.toNat ≤ s.iter.idx.toNat)

/-- `STATUS` as read, high bits first: 31:12 zero, 11:8 ERR, 7:6 zero, FATAL, OVERRUN, EXHAUSTED, ITER_ACTIVE,
CFG_VALID, BUSY. -/
def State.statusWord (s : State) : Word :=
  0#20 ++ s.status.err.code ++ 0#2 ++ BitVec.ofBool s.status.fatal ++ BitVec.ofBool s.status.overrun
    ++ BitVec.ofBool s.exhausted ++ BitVec.ofBool s.iter.active ++ BitVec.ofBool s.active.valid
    ++ BitVec.ofBool s.busy

end Sys2Proof.Machine
end

