-- ==== Sys2Proof/Machine/Window.lean ====
section
/-! DEFINITION. The register window (20_memory.md): the map of offsets, reading and writing a register, and a bus access of
any offset and width. -/

namespace Sys2Proof.Machine

/-- The offset of a register (R66). -/
def Reg.offset : Reg → Offset
  | .cmd => 0x00
  | .status => 0x04
  | .cfgN => 0x08
  | .cfgRounds => 0x0C
  | .cfgSeedLo => 0x10
  | .cfgSeedHi => 0x14
  | .operand => 0x18
  | .result => 0x1C
  | .resultIdx => 0x20
  | .walks => 0x24
  | .n => 0x28
  | .k => 0x2C
  | .rounds => 0x30
  | .seedLo => 0x34
  | .seedHi => 0x38
  | .iterIdx => 0x3C
  | .caps => 0x40

/-- The register at an offset (R66), or none: a misaligned (R63) or a reserved (R67) offset. -/
def Reg.ofOffset (off : Offset) : Option Reg :=
  match off.toNat with
  | 0x00 => some .cmd
  | 0x04 => some .status
  | 0x08 => some .cfgN
  | 0x0C => some .cfgRounds
  | 0x10 => some .cfgSeedLo
  | 0x14 => some .cfgSeedHi
  | 0x18 => some .operand
  | 0x1C => some .result
  | 0x20 => some .resultIdx
  | 0x24 => some .walks
  | 0x28 => some .n
  | 0x2C => some .k
  | 0x30 => some .rounds
  | 0x34 => some .seedLo
  | 0x38 => some .seedHi
  | 0x3C => some .iterIdx
  | 0x40 => some .caps
  | _ => none

/-- What a read of a register returns. `CMD` reads 0 (10_state.md R40), reserved bits read 0 (R68). -/
def readReg (reg : Reg) (s : State) : Word :=
  match reg with
  | .cmd => 0
  | .status => s.statusWord
  | .cfgN => s.staging.cfgN
  | .cfgRounds => s.staging.cfgRounds.setWidth 32
  | .cfgSeedLo => s.staging.cfgSeedLo
  | .cfgSeedHi => s.staging.cfgSeedHi
  | .operand => s.staging.operand
  | .result => s.results.result
  | .resultIdx => s.results.resultIdx
  | .walks => s.results.walks
  | .n => s.active.n
  | .k => s.active.k.setWidth 32
  | .rounds => s.active.rounds.setWidth 32
  | .seedLo => s.active.seedLo
  | .seedHi => s.active.seedHi
  | .iterIdx => s.iter.idx
  | .caps => Config.caps

/-- A command word is offered (60_exceptions.md R210 to R212): dropped silently while `FATAL`, dropped with `OVERRUN`
while `BUSY`, else accepted. -/
def offerCommand (w : Word) (s : State) : State :=
  if s.status.fatal then s
  else if s.busy then s.setOverrun true
  else s.accept w

/-- A write of a register. A read-only register keeps its value (R68). -/
def writeReg (reg : Reg) (v : Word) (s : State) : State :=
  match reg with
  | .cmd => offerCommand v s
  | .status => if v.getLsbD 4 then s.setOverrun false else s
  | .cfgN => s.setStaging { s.staging with cfgN := v }
  | .cfgRounds => s.setStaging { s.staging with cfgRounds := v.setWidth 16 }
  | .cfgSeedLo => s.setStaging { s.staging with cfgSeedLo := v }
  | .cfgSeedHi => s.setStaging { s.staging with cfgSeedHi := v }
  | .operand => s.setStaging { s.staging with operand := v }
  | .result => s
  | .resultIdx => s
  | .walks => s
  | .n => s
  | .k => s
  | .rounds => s
  | .seedLo => s
  | .seedHi => s
  | .iterIdx => s
  | .caps => s

/-- The register that an access reaches: none unless it is 32 bits wide and its offset is that of a register (R63,
R67). -/
def Access.target (a : Access) : Option Reg :=
  match a.width with
  | .w32 => Reg.ofOffset a.off
  | .w8 => none
  | .w16 => none
  | .w64 => none

/-- A bus access. A refused one is the fault `BUS_ERROR(offset, width)` (R69; log entry 6). A read has no side effect on
the block (R65). Data of another width than 32 bits never reaches a register. -/
def busAccess (a : Access) (s : State) : Result :=
  match a.target, a with
  | some reg, .read _ _ => .next (s.respond (.value reg (readReg reg s)))
  | some reg, .write _ (.word v) => .next ((writeReg reg v s).respond (.written reg))
  | _, _ => .fault (.busError a.off a.width)

end Sys2Proof.Machine
end

