-- ==== Sys2Proof/Machine/HostProgram.lean ====
section
/-! DEFINITION. Host programs (30_encoding.md R102 to R104): the access of each operation, the pseudo-instructions, the
encoding of a program, and the host's turn. -/

namespace Sys2Proof.Machine

/-- The bus access that an operation makes (R102); `wait` reads `STATUS`. -/
def HostOp.toAccess : HostOp → Access
  | .wr reg v => .write reg.offset (.word v)
  | .rd reg => .read reg.offset .w32
  | .issue c => .write Reg.cmd.offset (.word (encode c))
  | .wait => .read Reg.status.offset .w32
  | .access a => a

/-- What is left of the program after an operation: `wait` is repeated until the `STATUS` it read has `BUSY = 0`
(R102). -/
def HostOp.remaining (op : HostOp) (busy : Bool) (rest : List HostOp) : List HostOp :=
  match op with
  | .wait => if busy then op :: rest else rest
  | .wr _ _ => rest
  | .rd _ => rest
  | .issue _ => rest
  | .access _ => rest

/-- The host's turn: the access of the next operation of its program. A host with nothing left to do changes nothing
(60_exceptions.md R227). -/
def hostStep (s : State) : Result :=
  match s.host.program with
  | [] => .next s
  | op :: rest =>
    match busAccess op.toAccess s with
    | .next t => .next (t.setProgram (op.remaining s.busy rest))
    | .fault e => .fault e
    | .refused e => .refused e

/-- The value last read from a register, by the register's name (R102). -/
def HostSide.valueOf (reg : Reg) (h : HostSide) : Option Word :=
  h.responses.findSome? fun r =>
    match r with
    | .value reg' v => if reg' = reg then some v else none
    | .written _ => none

/-- `construct n, seed, rounds` (R103). -/
def construct (n : Word) (seed : Seed) (rounds : Word) : List HostOp :=
  [.wr .cfgN n, .wr .cfgSeedLo (seed.extractLsb' 0 32), .wr .cfgSeedHi (seed.extractLsb' 32 32), .wr .cfgRounds rounds,
   .issue (.config .staging), .wait]

/-- `construct.entropy n, rounds` (R103). -/
def constructEntropy (n rounds : Word) : List HostOp :=
  [.wr .cfgN n, .wr .cfgRounds rounds, .issue (.config .entropy), .wait]

/-- `construct.default n, seed` (R103). -/
def constructDefault (n : Word) (seed : Seed) : List HostOp :=
  [.wr .cfgN n, .wr .cfgSeedLo (seed.extractLsb' 0 32), .wr .cfgSeedHi (seed.extractLsb' 32 32),
   .issue (.config .staging), .wait]

/-- `getv i` (R103), which is also `p[i]` (R104). -/
def getv (i : Word) : List HostOp := [.wr .operand i, .issue .get, .wait, .rd .status, .rd .result]

/-- `next` (R103). -/
def nextElement : List HostOp := [.issue .iterNext, .wait, .rd .status, .rd .result]

/-- `cipherv x` (R103). -/
def cipherv (x : Word) : List HostOp := [.wr .operand x, .issue .cipher, .wait, .rd .result]

/-- `mixv v, r` (R103). -/
def mixv (v : Word) (r : RoundIdx) : List HostOp := [.wr .operand v, .issue (.mix r), .wait, .rd .result]

/-- The encoding of a host program (R102): the offset and data of each write and the offset of each read. DESIGN CHOICE
(log entry 20): one list in program order, in which a `wait` is the one read of `STATUS` that it repeats. -/
def encodeProgram (p : List HostOp) : List Access := p.map HostOp.toAccess

end Sys2Proof.Machine
end

