-- ==== Sys2Proof/Machine/Engine.lean ====
section
/-! DEFINITION. The engine's step (60_exceptions.md R210), one turn of the environment, and the step of the machine for any
parameters. Each takes the commands' completion `run` as an argument: for this block it is `exec`. -/

namespace Sys2Proof.Machine

/-- The completion of a command for any parameters. For this block's it is `exec`, the dispatch of Dispatch.lean. -/
def execWith (p : Params) (i : Instr) (s : State) : Result :=
  match i with
  | .nop => execNop s
  | .config src => execConfig src s
  | .get => execGetWith p s
  | .iterStart => execIterStart s
  | .iterNext => execIterNextWith p s
  | .cipher => execCipherWith p s
  | .mix r => execMixWith p r s

/-- The completion of the latched command (R210): decode first, and an illegal word raises `ILLEGAL_COMMAND`
(30_encoding.md R99). -/
def completePending (run : Instr → State → Result) (s : State) : Result :=
  match decode s.pend.cmd with
  | .legal i => run i s
  | .illegal _ => raise .illegalCommand s

/-- The engine's turn: its one step is enabled while `BUSY = 1`, and it has none otherwise (R210; log entry 4). -/
def engineStep (run : Instr → State → Result) (s : State) : Result := if s.busy then completePending run s else .next s

/-- One turn. -/
def takeTurn (p : Params) (run : Instr → State → Result) (t : Turn) (s : State) : Result :=
  match t with
  | .host => hostStep s
  | .engine => engineStep run s
  | .reset => .next (s.resetBlock p)

/-- One step, for any parameters: the turn that is due is taken off the schedule and played. -/
def stepWith (p : Params) (s : State) : Result := takeTurn p (execWith p) s.turn s.dropTurn

end Sys2Proof.Machine
end

