-- ==== Sys2Proof/Machine/Step.lean ====
section
/-! DEFINITION. The step: one entry of the total order of host accesses, engine steps and resets (20_memory.md R71). -/

namespace Sys2Proof.Machine

/-- One step of this block: the turn that is due is taken off the schedule and played. -/
def step (s : State) : Host.Outcome State Fault Refusal := takeTurn block exec s.turn s.dropTurn

/-- The command word `w` placed where the engine takes its next command from, and the engine's turn put next. The block
fetches nothing: a command arrives through `CMD`, so this is exactly the acceptance of that word (log entry 5). -/
def State.withFetchWord (s : State) (nbits w : Nat) : State :=
  (s.accept (tableWord nbits w)).setSchedule (.engine :: s.host.schedule)

end Sys2Proof.Machine
end

