-- ==== Sys2Proof/Machine/Assembler.lean ====
section
/-! DEFINITION. The assembler of command mnemonics (30_encoding.md R101), on lists of characters. The model's choices
(log entry 11): hexadecimal digits of either case, leading zeros, one space after `mix`. -/

namespace Sys2Proof.Machine

/-- The value of a decimal digit. -/
def decDigit (c : Char) : Option Nat := if '0' ≤ c ∧ c ≤ '9' then some (c.toNat - '0'.toNat) else none

/-- The value of a hexadecimal digit. -/
def hexDigit (c : Char) : Option Nat :=
  if '0' ≤ c ∧ c ≤ '9' then some (c.toNat - '0'.toNat)
  else if 'a' ≤ c ∧ c ≤ 'f' then some (c.toNat - 'a'.toNat + 10)
  else if 'A' ≤ c ∧ c ≤ 'F' then some (c.toNat - 'A'.toNat + 10)
  else none

/-- Digits read after those whose value is `acc`; none where a character is no digit. -/
def readDigits (base : Nat) (digit : Char → Option Nat) : List Char → Nat → Option Nat
  | [], acc => some acc
  | c :: cs, acc =>
    match digit c with
    | some d => readDigits base digit cs (base * acc + d)
    | none => none

/-- A number: decimal, or hexadecimal after `0x`; at least one digit. -/
def readNumber : List Char → Option Nat
  | [] => none
  | ['0', 'x'] => none
  | '0' :: 'x' :: cs => readDigits 16 hexDigit cs 0
  | cs => readDigits 10 decDigit cs 0

/-- The operand of `mix`: a number in 0 to 65535. -/
def readRound (cs : List Char) : Option Instr :=
  match readNumber cs with
  | some v => if v ≤ 65535 then some (.mix (BitVec.ofNat 16 v)) else none
  | none => none

/-- The command of a mnemonic (R101); any other spelling is refused. -/
def assemble : List Char → Option Instr
  | ['n', 'o', 'p'] => some .nop
  | ['c', 'o', 'n', 'f', 'i', 'g'] => some (.config .staging)
  | ['c', 'o', 'n', 'f', 'i', 'g', '.', 'e', 'n', 't', 'r', 'o', 'p', 'y'] => some (.config .entropy)
  | ['g', 'e', 't'] => some .get
  | ['i', 't', 'e', 'r', '.', 's', 't', 'a', 'r', 't'] => some .iterStart
  | ['i', 't', 'e', 'r', '.', 'n', 'e', 'x', 't'] => some .iterNext
  | ['c', 'i', 'p', 'h', 'e', 'r'] => some .cipher
  | 'm' :: 'i' :: 'x' :: ' ' :: cs => readRound cs
  | _ => none

/-- The word that a mnemonic stands for (R101). -/
def assembleWord (cs : List Char) : Option Word := (assemble cs).map encode

end Sys2Proof.Machine
end

