-- ==== Sys2Proof/Safety.lean ====
section
/-! DEFINITION. The terms in which claims speak: the invariant of the block, a host that the bus never refuses, the
command that a step completes, runs that complete only some commands, and the outcomes that each command may have. -/

namespace Sys2Proof

namespace Machine

/-- The configuration invariant (10_state.md R42). -/
abbrev State.ConfigInv (s : State) : Prop :=
  s.active.valid = true →
    1 ≤ s.active.n.toNat ∧ s.active.k = kbits s.active.n ∧ 1 ≤ s.active.rounds.toNat

/-- The iterator invariant (10_state.md R43). -/
abbrev State.IterInv (s : State) : Prop :=
  s.iter.active = true → s.active.valid = true ∧ s.iter.idx.toNat ≤ s.active.n.toNat

/-- A fatal block has no command in flight (60_exceptions.md R212, R217). -/
abbrev State.FatalInv (s : State) : Prop := s.status.fatal = true → s.busy = false

/-- The invariant of the block. -/
abbrev State.Inv (s : State) : Prop := s.ConfigInv ∧ s.IterInv ∧ s.FatalInv

/-- The state holds a permutation object that meets R42: `CFG_VALID = 1`, `N >= 1`, `K = kbits(N)`, `ROUNDS >= 1`. -/
abbrev State.Configured (s : State) : Prop := s.active.valid = true ∧ s.ConfigInv

/-- Every operation that the host still has to make is one that the bus never refuses. -/
abbrev State.HostConforms (s : State) : Prop := ∀ op ∈ s.host.program, op.wellFormed = true

/-- The legal command that the next step completes, if it completes one. -/
def State.completing (s : State) : Option Instr :=
  if s.turn = .engine ∧ s.busy = true then (decode s.pend.cmd).instr? else none

/-- The next step is no reset, and a legal command that it completes is one of those allowed. -/
def State.Allows (allowed : Instr → Bool) (s : State) : Prop :=
  s.turn ≠ .reset ∧ ∀ i, s.completing = some i → allowed i = true

/-- A run of the machine whose steps are no reset and complete only allowed commands; `j` counts the `ITER_NEXT`s that it
completes. Host accesses of every kind may come between. -/
inductive Run (allowed : Instr → Bool) : Nat → State → State → Prop where
  | start (s : State) : Run allowed 0 s s
  | more {j : Nat} {s t u : State} (before : Run allowed j s t) (ok : t.Allows allowed) (now : step t = .next u) :
      Run allowed (if t.completing = some .iterNext then j + 1 else j) s u

/-- `get(i)` (43_cycle_walk_iterator.md R170) as a value: the walked value, where the walk ends. -/
def State.getValue (p : Params) (s : State) (i : Word) : Option Word := (s.walk p i).map Prod.fst

end Machine

/-- Every command but `CONFIG`: the active configuration stays. -/
def Instr.keepsConfig : Instr → Bool
  | .nop => true
  | .config _ => false
  | .get => true
  | .iterStart => true
  | .iterNext => true
  | .cipher => true
  | .mix _ => true

/-- Every command but `CONFIG` and `ITER_START`: a started iteration goes on. -/
def Instr.keepsIteration : Instr → Bool
  | .nop => true
  | .config _ => false
  | .get => true
  | .iterStart => false
  | .iterNext => true
  | .cipher => true
  | .mix _ => true

/-- The outcomes that the table of 60_exceptions.md R218 lists for a command. -/
def Instr.outcomes : Instr → List Machine.ErrCode
  | .nop => [.none]
  | .config _ => [.none, .invalidDomain, .invalidRoundCount]
  | .get => [.none, .notConfigured, .outOfRange, .walkCapExceeded]
  | .iterStart => [.none, .notConfigured]
  | .iterNext => [.none, .notConfigured, .iterNotActive, .iterEnd, .walkCapExceeded]
  | .cipher => [.none, .notConfigured, .outOfRange]
  | .mix _ => [.none, .notConfigured]

end Sys2Proof
end

