-- ==== Sys2Proof/Certificates/Slice0/Obligations.lean ====
section
/-! DEFINITION. The statements about the block, each naming the rules of spec/ it rests on. -/

open Sys2Proof Sys2Proof.Machine

/-! ### Encoding -/

/-- O1. Decoding and encoding agree in both directions (30_encoding.md R90, R97): a word decodes to a command exactly if
it is that command's word, for every command and every value of S and RIDX. -/
def Obligations.DecodeAndEncodeAgree : Prop :=
  ∀ (w : Word) (i : Instr), decode w = .legal i ↔ w = encode i

/-- O2. The exact legal words (30_encoding.md R96), and that every other 32-bit word is illegal. -/
def Obligations.ExactLegalWords : Prop :=
  (decode 0x00000000 = .legal .nop ∧
    decode 0x00000001 = .legal (.config .staging) ∧ decode 0x00000011 = .legal (.config .entropy) ∧
    decode 0x00000002 = .legal .get ∧ decode 0x00000003 = .legal .iterStart ∧
    decode 0x00000004 = .legal .iterNext ∧ decode 0x00000005 = .legal .cipher ∧
    ∀ r : RoundIdx, decode ((r.setWidth 32 <<< 16) ||| 0x00000006) = .legal (.mix r)) ∧
  ∀ w : Word,
    w ≠ 0x00000000 → w ≠ 0x00000001 → w ≠ 0x00000011 → w ≠ 0x00000002 → w ≠ 0x00000003 → w ≠ 0x00000004 →
      w ≠ 0x00000005 → (∀ r : RoundIdx, w ≠ (r.setWidth 32 <<< 16) ||| 0x00000006) → ∃ why, decode w = .illegal why

/-- O3. The rows of spec/opcode_table.json (match and mask) are exactly what the decoder admits, and no word belongs to
two different rows. -/
def Obligations.LegalWordsAreTheTableRows : Prop :=
  (∀ w : Word, legalWord w = true ↔ ∃ i, decode w = .legal i) ∧
    (∀ (w : Word) (i : Instr), decode w = .legal i → i.row.holds w = true) ∧
    ∀ (w : Word) (i j : Instr), i.row.holds w = true → j.row.holds w = true → i.row = j.row

/-- O4. Words written out from the spec's encodings (30_encoding.md R90, R96) decode to their commands, and words with a
reserved bit, an unused S or RIDX or a reserved opcode are illegal (95_test_vectors.md 2.7). -/
def Obligations.SpecWordsDecode : Prop :=
  decode 0b0000000000000000_00000000000_0_0000 = .legal .nop ∧
    decode 0b0000000000000000_00000000000_1_0001 = .legal (.config .entropy) ∧
    decode 0b0000000000000000_00000000000_0_0010 = .legal .get ∧
    decode 0b0000000000000011_00000000000_0_0110 = .legal (.mix 3) ∧
    decode 0b1111111111111111_00000000000_0_0110 = .legal (.mix 65535) ∧
    decode 0x00000020 = .illegal .reservedBits ∧ decode 0x00008006 = .illegal .reservedBits ∧
    decode 0x00000012 = .illegal .seedSource ∧ decode 0x80000002 = .illegal .roundIndex ∧
    decode 0x00000007 = .illegal .reservedOpcode ∧ decode 0x0000000F = .illegal .reservedOpcode

/-! ### The life of a command -/

/-- O5. A step runs the decoded command: on the engine's turn, with a pending word that decodes to `i`, the step is
`exec i`, with only the turn taken off the schedule (60_exceptions.md R210). A word placed by `withFetchWord` is run by
the very next step, on the state that has accepted it. The turns and the placing are the model's (log entries 3 and 5). -/
def Obligations.StepRunsTheDecodedCommand : Prop :=
  (∀ (s : State) (i : Instr), s.turn = .engine → s.busy = true → decode s.pend.cmd = .legal i →
    step s = exec i s.dropTurn) ∧
  ∀ (s : State) (i : Instr), step (s.withFetchWord 32 (encode i).toNat) = exec i (s.accept (encode i))

/-- O6. An illegal word (30_encoding.md R99) is accepted like any other, and its completion writes `ERR` and `BUSY` and
nothing else. The turn taken off the schedule is the model's choice (log entry 3). -/
def Obligations.IllegalWordCompletes : Prop :=
  (∀ (w : Word) (why : IllegalReason) (s : State), decode w = .illegal why → s.status.fatal = false →
    s.busy = false → writeReg .cmd w s = s.accept w ∧ (s.accept w).busy = true) ∧
  ∀ (s : State) (why : IllegalReason), s.turn = .engine → s.busy = true → decode s.pend.cmd = .illegal why →
    step s = .next { s.dropTurn with
      status := { s.status with err := .illegalCommand }, pend := { s.pend with valid := false } }

/-- O7. Acceptance (60_exceptions.md R210, 10_state.md R41): a write of `CMD` while `BUSY = 0` and `FATAL = 0` latches the
word and every staging register, sets `BUSY`, and changes nothing else of the block. The record of the response is the
model's choice (log entry 12). -/
def Obligations.AcceptanceLatchesTheOperands : Prop :=
  ∀ (w : Word) (s : State), s.busy = false → s.status.fatal = false →
    busAccess (.write 0x00 (.word w)) s = .next { s with
      pend := { valid := true, cmd := w, n := s.staging.cfgN, rounds := s.staging.cfgRounds,
                seed := s.staging.cfgSeedHi ++ s.staging.cfgSeedLo, op := s.staging.operand },
      host := { s.host with responses := .written .cmd :: s.host.responses } }

/-- O8. A write of `CMD` while `BUSY = 1` (and `FATAL = 0`) is dropped and sets `OVERRUN` (60_exceptions.md R211), which
then stays until a reset or a host write of `STATUS` with bit 4 set. That the host's record gains the response is the
model's choice (log entry 12), and so are the turns (log entry 3). -/
def Obligations.CommandWhileBusyIsDropped : Prop :=
  (∀ (w : Word) (s : State), s.busy = true → s.status.fatal = false →
    busAccess (.write 0x00 (.word w)) s = .next { s with
      status := { s.status with overrun := true },
      host := { s.host with responses := .written .cmd :: s.host.responses } }) ∧
  ∀ s t : State, step s = .next t → s.status.overrun = true →
    t.status.overrun = true ∨ s.turn = .reset ∨
      (s.turn = .host ∧ ∃ op rest v, s.host.program = op :: rest ∧ op.toAccess = .write 0x04 (.word v) ∧
        v.getLsbD 4 = true)

/-- O9. A write of `CMD` while `FATAL = 1` is dropped silently (60_exceptions.md R212), and a fatal block with no command
in flight runs none until reset. That the host's record gains the response is the model's choice (log entry 12), and so
are the turns (log entry 3). -/
def Obligations.CommandWhileFatalIsDropped : Prop :=
  (∀ (w : Word) (s : State), s.status.fatal = true →
    busAccess (.write 0x00 (.word w)) s = .next { s with
      host := { s.host with responses := .written .cmd :: s.host.responses } }) ∧
  ∀ s t : State, s.status.fatal = true → s.busy = false → s.turn ≠ .reset → step s = .next t →
    t.status.fatal = true ∧ t.pend = s.pend ∧ t.active = s.active ∧ t.results = s.results ∧ t.iter = s.iter ∧
      t.status.err = s.status.err

/-- O10. The host's turn leaves what the engine writes as it was (70_reset_and_hazards.md R256, 20_memory.md R65): the
active configuration, the results, the iterator, `ERR`, `FATAL` and the entropy port, and, while `BUSY = 1`, the command
in flight. -/
def Obligations.HostTurnLeavesTheEngineAlone : Prop :=
  ∀ s t : State, s.turn = .host → step s = .next t →
    t.active = s.active ∧ t.results = s.results ∧ t.iter = s.iter ∧ t.status.err = s.status.err ∧
      t.status.fatal = s.status.fatal ∧ t.draws = s.draws ∧ (s.busy = true → t.pend = s.pend)

/-- O11. Staging writes after acceptance are safe (70_reset_and_hazards.md R259): whatever is written to the staging
registers, the command in flight completes just the same, and the next accepted command takes the new values. -/
def Obligations.StagingWritesMissTheCommandInFlight : Prop :=
  ∀ (g : Staging) (s : State),
    (∃ t, completePending exec s = .next t ∧ completePending exec (s.setStaging g) = .next (t.setStaging g)) ∧
    ∀ w : Word, ((s.setStaging g).accept w).pend =
      { valid := true, cmd := w, n := g.cfgN, rounds := g.cfgRounds, seed := g.cfgSeedHi ++ g.cfgSeedLo,
        op := g.operand }

/-- O12. No command reads `ERR` or `OVERRUN` as an input (10_state.md R22): with any values of them a command has the
same effect, and it carries `OVERRUN` through. -/
def Obligations.OutcomeBitsAreNoInput : Prop :=
  ∀ (i : Instr) (s : State) (overrun : Bool) (err : ErrCode),
    ∃ t, exec i s = .next t ∧
      exec i { s with status := { s.status with overrun := overrun, err := err } } =
        .next { t with status := { t.status with overrun := overrun } }

/-- O13. While `PEND.VALID = 0` no rule reads the other fields of `PEND` (70_reset_and_hazards.md R252): with any values
of them the step has the same outcome, and it never makes the latch valid with a field of the old one. -/
def Obligations.PendIsUnreadWhileIdle : Prop :=
  ∀ (s : State) (p : Pend), s.busy = false → p.valid = false →
    (∀ e, step s = .fault e → step { s with pend := p } = .fault e) ∧
    (∀ e, step s ≠ .refused e) ∧
    ∀ t, step s = .next t → ∃ q, step { s with pend := p } = .next { t with pend := q } ∧
      (q = t.pend ∨ (t.pend.valid = false ∧ q = p))

/-- O14. Every command completes in every state, and what it leaves unchanged: the staging registers, the environment,
`OVERRUN`, the latched operands; `FATAL` by every command without a walk; the active configuration and the entropy port
by every command but `CONFIG`; the iterator by `NOP`, `GET`, `CIPHER` and `MIX`; the result registers by `NOP`, `CONFIG`
and `ITER_START`. -/
def Obligations.EveryCommandFrame : Prop :=
  ∀ (i : Instr) (s : State), ∃ t, exec i s = .next t ∧
    t.staging = s.staging ∧ t.host = s.host ∧ t.status.overrun = s.status.overrun ∧
    t.pend = { s.pend with valid := false } ∧
    (i ≠ .get → i ≠ .iterNext → t.status.fatal = s.status.fatal) ∧
    ((∀ src, i ≠ .config src) → t.active = s.active ∧ t.draws = s.draws) ∧
    ((i = .nop ∨ i = .get ∨ i = .cipher ∨ ∃ r, i = .mix r) → t.iter = s.iter) ∧
    ((i = .nop ∨ i = .iterStart ∨ ∃ src, i = .config src) → t.results = s.results)

/-! ### Outcomes -/

/-- O15. The outcomes of each command are those of the table of 60_exceptions.md R218, and an illegal word has the one
outcome `ILLEGAL_COMMAND`; where the configuration meets R42, `WALK_CAP_EXCEEDED` does not occur. -/
def Obligations.OutcomesPerCommand : Prop :=
  (∀ (i : Instr) (s t : State), exec i s = .next t → t.status.err ∈ i.outcomes) ∧
    (∀ (why : IllegalReason) (s t : State), decode s.pend.cmd = .illegal why → completePending exec s = .next t →
      t.status.err = .illegalCommand) ∧
    ∀ (i : Instr) (s t : State), s.ConfigInv → exec i s = .next t → t.status.err ≠ .walkCapExceeded

/-- O16. Errors are precise (60_exceptions.md R214, R217, R219): a completion with an error code writes that code and
`BUSY`, and for the fatal code `FATAL`, and nothing else; no command writes a staging register. -/
def Obligations.ErrorsArePrecise : Prop :=
  ∀ s t : State, completePending exec s = .next t →
    t.staging = s.staging ∧
    (t.status.err ≠ .none → t.status.err ≠ .walkCapExceeded →
      t = { s with status := { s.status with err := t.status.err }, pend := { s.pend with valid := false } }) ∧
    (t.status.err = .walkCapExceeded →
      t = { s with
        status := { s.status with fatal := true, err := .walkCapExceeded }, pend := { s.pend with valid := false } })

/-- O17. The priority of errors (60_exceptions.md R216): decode first, then `NOT_CONFIGURED`, then `ITER_NOT_ACTIVE`, then
the command's own checks in order; and a host access never writes `ERR`. -/
def Obligations.ErrorPriority : Prop :=
  (∀ s t : State, completePending exec s = .next t →
    (∀ why, decode s.pend.cmd = .illegal why → t.status.err = .illegalCommand) ∧
    (∀ i, decode s.pend.cmd = .legal i → i ≠ .nop → (∀ src, i ≠ .config src) → s.active.valid = false →
      t.status.err = .notConfigured) ∧
    (decode s.pend.cmd = .legal .iterNext → s.active.valid = true → s.iter.active = false →
      t.status.err = .iterNotActive) ∧
    (∀ src, decode s.pend.cmd = .legal (.config src) → s.pend.n = 0 → t.status.err = .invalidDomain) ∧
    (∀ src, decode s.pend.cmd = .legal (.config src) → s.pend.n ≠ 0 → s.pend.rounds = 0 →
      t.status.err = .invalidRoundCount) ∧
    (decode s.pend.cmd = .legal .get → s.active.valid = true → s.active.n.toNat ≤ s.pend.op.toNat →
      t.status.err = .outOfRange) ∧
    (decode s.pend.cmd = .legal .cipher → s.active.valid = true → 2 ^ s.active.k.toNat ≤ s.pend.op.toNat →
      t.status.err = .outOfRange) ∧
    (decode s.pend.cmd = .legal .iterNext → s.active.valid = true → s.iter.active = true →
      s.active.n.toNat ≤ s.iter.idx.toNat → t.status.err = .iterEnd)) ∧
  ∀ (a : Access) (s t : State), busAccess a s = .next t → t.status.err = s.status.err

/-! ### The commands -/

/-- O18. `NOP` (43_cycle_walk_iterator.md R176) completes in every state: `ERR <- NONE`, and nothing else but `BUSY`; the
host then reads `STATUS` with `BUSY = 0` and `ERR = 0` and its other bits as before. -/
def Obligations.NopCompletes : Prop :=
  ∀ s : State, ∃ t, exec .nop s = .next t ∧
    t = { s with status := { s.status with err := .none }, pend := { s.pend with valid := false } } ∧
    readReg .status t = readReg .status s &&& 0xFFFFF0FE

/-- O19. `CONFIG` with a domain size and a round count that are not 0 (43_cycle_walk_iterator.md R177, R179) writes the
whole active configuration from the latch, the seed from the latch (S = 0) or from exactly one draw of `ENTROPY` (S = 1),
clears the iterator, and changes nothing else. The draw is a free value: nothing here rests on its value. -/
def Obligations.ConfigInstallsTheConfiguration : Prop :=
  ∀ (src : SeedSource) (s : State), s.pend.n ≠ 0 → s.pend.rounds ≠ 0 →
    ∃ t, exec (.config src) s = .next t ∧
      t = { s with
        active := { n := s.pend.n, k := kbits s.pend.n, rounds := s.pend.rounds, seedLo := t.active.seedLo,
                    seedHi := t.active.seedHi, valid := true },
        iter := { idx := 0, active := false },
        status := { s.status with err := .none }, pend := { s.pend with valid := false }, draws := t.draws } ∧
      (t.active.seedHi ++ t.active.seedLo : Seed) =
        (match src with | .staging => s.pend.seed | .entropy => Config.entropy s.draws) ∧
      t.draws = (match src with | .staging => s.draws | .entropy => s.draws + 1)

/-- O20. A failing `CONFIG` (43_cycle_walk_iterator.md R177, R178): the domain size is checked before the round count, and
nothing but `ERR` and `BUSY` changes; no entropy is drawn. -/
def Obligations.ConfigRejectsBadInputs : Prop :=
  ∀ (src : SeedSource) (s : State),
    (s.pend.n = 0 → exec (.config src) s = .next { s with
      status := { s.status with err := .invalidDomain }, pend := { s.pend with valid := false } }) ∧
    (s.pend.n ≠ 0 → s.pend.rounds = 0 → exec (.config src) s = .next { s with
      status := { s.status with err := .invalidRoundCount }, pend := { s.pend with valid := false } })

/-- O21. `GET` with `i < N` (43_cycle_walk_iterator.md R170, R171, R180) completes without error: with `c` the least number
of applications of `F` that lands below `N`, `RESULT` is `F` applied `c` times to `i`, `RESULT_IDX` is `i`, `WALKS` is
`c`, and nothing else changes but `ERR` and `BUSY`. -/
def Obligations.GetDeliversTheWalkedValue : Prop :=
  ∀ s : State, s.Configured → s.pend.op.toNat < s.active.n.toNat →
    ∃ c, 1 ≤ c ∧ c ≤ walkCap s.active.n s.active.k ∧
      ((s.F block)^[c] s.pend.op).toNat < s.active.n.toNat ∧
      (∀ j, 1 ≤ j → j < c → s.active.n.toNat ≤ ((s.F block)^[j] s.pend.op).toNat) ∧
      (BitVec.ofNat 32 c).toNat = c ∧
      exec .get s = .next { s with
        results := { result := (s.F block)^[c] s.pend.op, resultIdx := s.pend.op, walks := BitVec.ofNat 32 c },
        status := { s.status with err := .none }, pend := { s.pend with valid := false } }

/-- O22. Range validation of `GET` (43_cycle_walk_iterator.md R186): `get(-1)`, written as 0xFFFF_FFFF, and `get(N)` fail
with `OUT_OF_RANGE`, and `get(0)` and `get(N - 1)` succeed. -/
def Obligations.GetRangeValidation : Prop :=
  ∀ s : State, s.Configured →
    ∃ t, exec .get s = .next t ∧
      (s.pend.op = 0xFFFFFFFF → t.status.err = .outOfRange ∧ t.results = s.results) ∧
      (s.pend.op = s.active.n → t.status.err = .outOfRange ∧ t.results = s.results) ∧
      (s.pend.op = 0 → t.status.err = .none) ∧
      (s.pend.op = s.active.n - 1 → t.status.err = .none)

/-- O23. `ITER_START` on a configured block (43_cycle_walk_iterator.md R181) starts or restarts the iteration at index 0
and changes nothing else but `ERR` and `BUSY`; `EXHAUSTED` is then 0, because `N >= 1`. -/
def Obligations.IterStartCompletes : Prop :=
  ∀ s : State, s.active.valid = true →
    ∃ t, exec .iterStart s = .next t ∧
      t = { s with
        iter := { idx := 0, active := true },
        status := { s.status with err := .none }, pend := { s.pend with valid := false } } ∧
      (s.ConfigInv → (readReg .status t).getLsbD 3 = false)

/-- O24. `ITER_NEXT` on an active iteration that is not at its end (43_cycle_walk_iterator.md R182) delivers the walked
value of `ITER_IDX` and advances `ITER_IDX` by exactly 1 with no wrap; `EXHAUSTED` becomes 1 when it reaches `N`. -/
def Obligations.IterNextDeliversTheWalkedValue : Prop :=
  ∀ s : State, s.Configured → s.iter.active = true → s.iter.idx.toNat < s.active.n.toNat →
    ∃ c t, 1 ≤ c ∧ c ≤ walkCap s.active.n s.active.k ∧
      ((s.F block)^[c] s.iter.idx).toNat < s.active.n.toNat ∧
      (∀ j, 1 ≤ j → j < c → s.active.n.toNat ≤ ((s.F block)^[j] s.iter.idx).toNat) ∧
      exec .iterNext s = .next t ∧
      t = { s with
        results := { result := (s.F block)^[c] s.iter.idx, resultIdx := s.iter.idx, walks := BitVec.ofNat 32 c },
        iter := { idx := s.iter.idx + 1, active := true },
        status := { s.status with err := .none }, pend := { s.pend with valid := false } } ∧
      t.iter.idx.toNat = s.iter.idx.toNat + 1 ∧
      ((readReg .status t).getLsbD 3 = true ↔ s.iter.idx.toNat + 1 = s.active.n.toNat)

/-- O25. `ITER_NEXT` that delivers nothing (43_cycle_walk_iterator.md R182): without an active iteration
`ITER_NOT_ACTIVE`, past the last element `ITER_END`, and in each case nothing but `ERR` and `BUSY` changes. -/
def Obligations.IterNextWithoutAnElement : Prop :=
  ∀ s : State, s.active.valid = true →
    (s.iter.active = false → exec .iterNext s = .next { s with
      status := { s.status with err := .iterNotActive }, pend := { s.pend with valid := false } }) ∧
    (s.iter.active = true → s.active.n.toNat ≤ s.iter.idx.toNat → exec .iterNext s = .next { s with
      status := { s.status with err := .iterEnd }, pend := { s.pend with valid := false } })

/-- O26. `CIPHER` on a configured block (42_domain_cipher.md R153): below `2^K` it writes `F(x)`, `x` and 1 and nothing else
but `ERR` and `BUSY`; at or above it raises `OUT_OF_RANGE`; with `K = 32` every operand is accepted, and with `K = 0`
only 0. `F` is the cipher of R148 with `MIX_REF` and the active `K`, `ROUNDS` and `SEED`, and for `GET` and `ITER_NEXT` it
is the same (R154). The cipher is spelled out as R148 writes it, for every round function. -/
def Obligations.CipherCompletes : Prop :=
  (∀ s : State, s.active.valid = true →
    (s.pend.op.toNat < 2 ^ s.active.k.toNat → exec .cipher s = .next { s with
      results :=
        { result :=
            cipher mixRef s.active.k.toNat s.active.rounds.toNat (s.active.seedHi ++ s.active.seedLo) s.pend.op
          resultIdx := s.pend.op
          walks := 1 }
      status := { s.status with err := .none }, pend := { s.pend with valid := false } }) ∧
    (2 ^ s.active.k.toNat ≤ s.pend.op.toNat → exec .cipher s = .next { s with
      status := { s.status with err := .outOfRange }, pend := { s.pend with valid := false } })) ∧
  (∀ s t : State, s.active.valid = true → exec .cipher s = .next t →
    (s.active.k = 32 → t.status.err = .none) ∧ (s.active.k = 0 → (t.status.err = .none ↔ s.pend.op = 0))) ∧
  (∀ (s : State) (x : Word),
    s.F block x = cipher mixRef s.active.k.toNat s.active.rounds.toNat (s.active.seedHi ++ s.active.seedLo) x) ∧
  ∀ (m : MixFn) (k rounds : Nat) (seed : Seed) (x : Word),
    let a := (k + 1) / 2
    let b := k / 2
    let start : Word × Word × Nat × Nat := (x >>> b, x &&& BitVec.ofNat 32 (2 ^ b - 1), a, b)
    let (l, r, _, wr) := (List.range rounds).foldl
      (fun (l, r, wl, wr) i =>
        (r, l ^^^ (m r (BitVec.ofNat 16 i) seed &&& BitVec.ofNat 32 (2 ^ wl - 1)), wr, wl)) start
    cipher m k rounds seed x = ((l <<< wr) ||| r)

/-- O27. `MIX` on a configured block (41_round_mixer.md R122, R125) writes the mixer's raw 32-bit word, the value mixed and
0, for every value and every round index, and changes nothing else but `ERR` and `BUSY`. -/
def Obligations.MixCompletes : Prop :=
  ∀ (r : RoundIdx) (s : State), s.active.valid = true →
    exec (.mix r) s = .next { s with
      results :=
        { result :=
            fmix32 (fmix32 (BitVec.ofNat 32
              ((s.pend.op ^^^ s.active.seedLo).toNat + (r.toNat + 1) * 0x9E3779B9)) ^^^ s.active.seedHi)
          resultIdx := s.pend.op
          walks := 0 }
      status := { s.status with err := .none }, pend := { s.pend with valid := false } }

/-- O28. Before a configuration exists (10_state.md R32, 70_reset_and_hazards.md R253), every command but `NOP` and
`CONFIG` completes with `NOT_CONFIGURED`, whatever the rest of the state, and writes nothing else but `BUSY`. -/
def Obligations.NotConfiguredBeforeConfig : Prop :=
  ∀ (i : Instr) (s : State), i ≠ .nop → (∀ src, i ≠ .config src) → s.active.valid = false →
    exec i s = .next { s with
      status := { s.status with err := .notConfigured }, pend := { s.pend with valid := false } }

/-! ### The mixer, the cipher and the walk -/

/-- O29. `fmix32` (41_round_mixer.md R123): the five lines of the rule, that it is a bijection of the 32-bit words, and the
three values the rule gives. -/
def Obligations.FmixIsBijective : Prop :=
  (∀ x : Word,
    let x1 := x ^^^ (x >>> 16)
    let x2 := BitVec.ofNat 32 (x1.toNat * 0x85EBCA6B)
    let x3 := x2 ^^^ (x2 >>> 13)
    let x4 := BitVec.ofNat 32 (x3.toNat * 0xC2B2AE35)
    fmix32 x = x4 ^^^ (x4 >>> 16)) ∧
  Function.Bijective fmix32 ∧ fmix32 0 = 0 ∧ fmix32 1 = 0x514E28B7 ∧ fmix32 0xFFFFFFFF = 0x81F16F39

/-- O30. `kbits(n)` is the smallest `k` with `2^k >= n` (42_domain_cipher.md R140), for every `n >= 1`, and it is at most
32. -/
def Obligations.KbitsIsMinimal : Prop :=
  ∀ n : Word, n ≠ 0 →
    n.toNat ≤ 2 ^ (kbits n).toNat ∧ (∀ j : Nat, n.toNat ≤ 2 ^ j → (kbits n).toNat ≤ j) ∧ (kbits n).toNat ≤ 32

/-- O31. The halves keep their widths (42_domain_cipher.md R143): after `r` rounds the widths are `(a, b)` if `r` is even
and `(b, a)` if it is odd, and each half lies below 2 to its width. -/
def Obligations.HalvesKeepTheirWidths : Prop :=
  ∀ (m : MixFn) (seed : Seed) (k r : Nat) (x : Word), k ≤ 32 → x.toNat < 2 ^ k →
    let h := roundsFrom m seed r 0 (split k x)
    (h.wl, h.wr) = (if r % 2 = 0 then (widthHi k, widthLo k) else (widthLo k, widthHi k)) ∧
      widthHi k + widthLo k = k ∧ h.l.toNat < 2 ^ h.wl ∧ h.r.toNat < 2 ^ h.wr

/-- O32. Bijectivity of the cipher (42_domain_cipher.md R150): for every `K` in `[0, 32]`, every round count, every seed
and every total round function, `F` is a bijection on `[0, 2^K)`. -/
def Obligations.CipherIsBijective : Prop :=
  ∀ (m : MixFn) (k rounds : Nat) (seed : Seed), k ≤ 32 →
    (∀ x : Word, x.toNat < 2 ^ k → (cipher m k rounds seed x).toNat < 2 ^ k) ∧
    ∀ y : Word, y.toNat < 2 ^ k → ∃! x : Word, x.toNat < 2 ^ k ∧ cipher m k rounds seed x = y

/-- O33. The inverse (42_domain_cipher.md R151): `Finv(F(x)) = x` and `F(Finv(y)) = y` on `[0, 2^K)`. -/
def Obligations.CipherInverseUndoesTheCipher : Prop :=
  ∀ (m : MixFn) (k rounds : Nat) (seed : Seed) (x : Word), k ≤ 32 → x.toNat < 2 ^ k →
    cipherInv m k rounds seed (cipher m k rounds seed x) = x ∧
      cipher m k rounds seed (cipherInv m k rounds seed x) = x

/-- O34. The one-element domain (42_domain_cipher.md R149, 43_cycle_walk_iterator.md R175): with `k = 0` both widths are 0,
the halves stay 0 and `F(0) = 0` for every round function; with `N = 1`, `K` is 0 and `get(0)` is 0 with walk length 1. -/
def Obligations.SingletonDomain : Prop :=
  (∀ (m : MixFn) (rounds : Nat) (seed : Seed),
    roundsFrom m seed rounds 0 (split 0 0) = { l := 0, r := 0, wl := 0, wr := 0 } ∧ cipher m 0 rounds seed 0 = 0) ∧
  ∀ (p : Params) (s : State), s.Configured → s.active.n = 1 → s.active.k = 0 ∧ s.walk p 0 = some (0, 1)

/-- O35. The two-element domain (42_domain_cipher.md R152): the half widths are 1 and 0, a round whose `wL` is 0 only
swaps, and `F(x)` is `x` XOR the low bits of `MIX(0, r, SEED)` over the even rounds. -/
def Obligations.TwoElementDomain : Prop :=
  (widthHi 1 = 1 ∧ widthLo 1 = 0) ∧
  (∀ (m : MixFn) (seed : Seed) (r : Nat) (h : Halves), h.wl = 0 →
    feistelRound m seed r h = { l := h.r, r := h.l, wl := h.wr, wr := 0 }) ∧
  ∀ (m : MixFn) (rounds : Nat) (seed : Seed) (x : Word), x.toNat < 2 →
    cipher m 1 rounds seed x =
      ((List.range rounds).filter (fun r => r % 2 = 0)).foldl
        (fun acc r => acc ^^^ (m 0 (BitVec.ofNat 16 r) seed &&& 1)) x

/-- O36. The walk ends within the cap (43_cycle_walk_iterator.md R172, R173), for every round function, seed, round count
and domain size: from `i < N` the loop of R171 answers after `c` applications with `1 <= c <= 2^K - N + 1 <= N`, so the
fatal branch is unreachable. -/
def Obligations.WalkEndsWithinTheCap : Prop :=
  ∀ (m : MixFn) (rounds : Nat) (seed : Seed) (n i : Word), i.toNat < n.toNat →
    let f := cipher m (kbits n).toNat rounds seed
    ∃ c, walkLoop f n (walkCap n (kbits n) - 1) (f i) 1 = some (f^[c] i, c) ∧
      1 ≤ c ∧ c ≤ 2 ^ (kbits n).toNat - n.toNat + 1 ∧ 2 ^ (kbits n).toNat - n.toNat + 1 ≤ n.toNat ∧
      n.toNat ≤ 2 ^ (kbits n).toNat

/-- O37. Bijectivity of `get` (43_cycle_walk_iterator.md R174): for every round function and every valid configuration each
index below `N` has a value below `N`, and each value below `N` is that of exactly one index. -/
def Obligations.GetIsBijective : Prop :=
  ∀ (p : Params) (s : State), s.Configured →
    (∀ i : Word, i.toNat < s.active.n.toNat → ∃ v, v.toNat < s.active.n.toNat ∧ s.getValue p i = some v) ∧
    ∀ v : Word, v.toNat < s.active.n.toNat →
      ∃! i : Word, i.toNat < s.active.n.toNat ∧ s.getValue p i = some v

/-- O38. `CIPHER` and `GET` share `F` (42_domain_cipher.md R154): if `CIPHER` on `i` gives a value below `N`, then `GET` on
`i` gives that value with walk length 1, and if it gives another, then `GET` has walk length at least 2. -/
def Obligations.CipherIsTheFirstStepOfTheWalk : Prop :=
  ∀ s t u : State, s.Configured → s.pend.op.toNat < s.active.n.toNat →
    exec .cipher s = .next t → exec .get s = .next u →
    t.status.err = .none ∧ u.status.err = .none ∧
    (t.results.result.toNat < s.active.n.toNat → u.results = { t.results with walks := 1 }) ∧
    (s.active.n.toNat ≤ t.results.result.toNat → 2 ≤ u.results.walks.toNat)

/-- O39. `MIX` and the cipher share one round function (41_round_mixer.md R126): on a half `R` and round `r` the command
returns the word whose low `wL` bits the round XORs into `L`. -/
def Obligations.MixIsTheRoundFunction : Prop :=
  ∀ (r : Nat) (h : Halves) (s t : State), r < s.active.rounds.toNat → s.active.valid = true → s.pend.op = h.r →
    exec (.mix (BitVec.ofNat 16 r)) s = .next t →
    (feistelRound block.mix s.active.seed r h).r = h.l ^^^ (t.results.result &&& BitVec.ofNat 32 (2 ^ h.wl - 1))

/-! ### The register window -/

/-- O40. The accesses that the block refuses (20_memory.md R63, R67, R69): an access that is 32 bits wide, at a multiple of
4 and not at a reserved offset 0x44 to 0xFC is answered, and every other is the fault `BUS_ERROR(offset, width)`. -/
def Obligations.BusErrorExactlyOutsideTheWindow : Prop :=
  ∀ (a : Access) (s : State),
    (a.width = .w32 ∧ a.off.toNat % 4 = 0 ∧ ¬(0x44 ≤ a.off.toNat ∧ a.off.toNat ≤ 0xFC) →
      ∃ t, busAccess a s = .next t) ∧
    (¬(a.width = .w32 ∧ a.off.toNat % 4 = 0 ∧ ¬(0x44 ≤ a.off.toNat ∧ a.off.toNat ≤ 0xFC)) →
      busAccess a s = .fault (.busError a.off a.width))

/-- O41. A read has no side effect (20_memory.md R65): the host's `rd` of any register, at the register's offset of R66,
answers with its value and changes nothing of the block. The value of each register is its state element
(10_state.md R23 to R36) with reserved bits 0 (`CFG_ROUNDS` and `ROUNDS` 31:16, `K` 31:6), `CAPS` is the constant of R39,
and `CMD` reads 0 (R40). `STATUS` is O43's. The record of the response and the turn taken off the schedule are the model's
choice (log entries 12 and 3). -/
def Obligations.ReadsChangeNothing : Prop :=
  (∀ (reg : Reg) (rest : List HostOp) (s : State), s.turn = .host → s.host.program = .rd reg :: rest →
    step s = .next { s with
      host := { program := rest, schedule := s.host.schedule.tail,
                responses := .value reg (readReg reg s) :: s.host.responses } }) ∧
  (∀ s : State,
    readReg .cmd s = 0 ∧
    readReg .cfgN s = s.staging.cfgN ∧ readReg .cfgRounds s = 0#16 ++ s.staging.cfgRounds ∧
    readReg .cfgSeedLo s = s.staging.cfgSeedLo ∧ readReg .cfgSeedHi s = s.staging.cfgSeedHi ∧
    readReg .operand s = s.staging.operand ∧
    readReg .result s = s.results.result ∧ readReg .resultIdx s = s.results.resultIdx ∧
    readReg .walks s = s.results.walks ∧
    readReg .n s = s.active.n ∧ readReg .k s = 0#26 ++ s.active.k ∧ readReg .rounds s = 0#16 ++ s.active.rounds ∧
    readReg .seedLo s = s.active.seedLo ∧ readReg .seedHi s = s.active.seedHi ∧
    readReg .iterIdx s = s.iter.idx ∧ readReg .caps s = 0x00000120) ∧
  [Reg.cmd, .status, .cfgN, .cfgRounds, .cfgSeedLo, .cfgSeedHi, .operand, .result, .resultIdx, .walks, .n, .k, .rounds,
    .seedLo, .seedHi, .iterIdx, .caps].map Reg.offset =
    [0x00, 0x04, 0x08, 0x0C, 0x10, 0x14, 0x18, 0x1C, 0x20, 0x24, 0x28, 0x2C, 0x30, 0x34, 0x38, 0x3C, 0x40]

/-- O42. Register writes (10_state.md R23 to R27, 20_memory.md R65, R68): the host's `wr` of any register, at the
register's offset, has exactly the effect of `writeReg` on the block; the record of the response and the turn taken off
the schedule are the model's choice (log entries 12 and 3). A write of a read/write register changes that
register alone, which reads back what was written (`CFG_ROUNDS` with bits 31:16 zero), a write of a register other than
`CMD` and `STATUS` changes no other register of the window, and a write of a read-only register changes nothing. -/
def Obligations.RegisterWritesReadBack : Prop :=
  (∀ (reg : Reg) (v : Word) (rest : List HostOp) (s : State), s.turn = .host → s.host.program = .wr reg v :: rest →
    step s = .next { writeReg reg v s with
      host := { program := rest, schedule := s.host.schedule.tail, responses := .written reg :: s.host.responses } }) ∧
  (∀ (v : Word) (s : State),
    writeReg .cfgN v s = { s with staging := { s.staging with cfgN := v } } ∧
    writeReg .cfgRounds v s = { s with staging := { s.staging with cfgRounds := v.extractLsb' 0 16 } } ∧
    writeReg .cfgSeedLo v s = { s with staging := { s.staging with cfgSeedLo := v } } ∧
    writeReg .cfgSeedHi v s = { s with staging := { s.staging with cfgSeedHi := v } } ∧
    writeReg .operand v s = { s with staging := { s.staging with operand := v } }) ∧
  (∀ (v : Word) (s : State),
    readReg .cfgN (writeReg .cfgN v s) = v ∧ readReg .cfgRounds (writeReg .cfgRounds v s) = v &&& 0x0000FFFF ∧
    readReg .cfgSeedLo (writeReg .cfgSeedLo v s) = v ∧ readReg .cfgSeedHi (writeReg .cfgSeedHi v s) = v ∧
    readReg .operand (writeReg .operand v s) = v) ∧
  (∀ (reg reg' : Reg) (v : Word) (s : State), reg ≠ .cmd → reg ≠ .status → reg' ≠ reg →
    readReg reg' (writeReg reg v s) = readReg reg' s) ∧
  ∀ (reg : Reg) (v : Word) (s : State),
    reg ∈ [Reg.result, .resultIdx, .walks, .n, .k, .rounds, .seedLo, .seedHi, .iterIdx, .caps] → writeReg reg v s = s

/-- O43. `STATUS` (10_state.md R38): each field at its bits, reserved bits 0, `ERR` as the code of 60_exceptions.md R213, and
a write changes only `OVERRUN`, which it clears if bit 4 is 1. -/
def Obligations.StatusRegister : Prop :=
  (∀ s : State,
    let w := readReg .status s
    w.getLsbD 0 = s.busy ∧ w.getLsbD 1 = s.active.valid ∧ w.getLsbD 2 = s.iter.active ∧
    w.getLsbD 3 = (s.iter.active && decide (s.active.n.toNat ≤ s.iter.idx.toNat)) ∧
    w.getLsbD 4 = s.status.overrun ∧ w.getLsbD 5 = s.status.fatal ∧ w.extractLsb' 6 2 = 0 ∧
    w.extractLsb' 8 4 = s.status.err.code ∧ w.extractLsb' 12 20 = 0) ∧
  (∀ (v : Word) (s : State),
    writeReg .status v s = { s with status := { s.status with overrun := s.status.overrun && !v.getLsbD 4 } } ∧
    readReg .status (writeReg .status v s) = readReg .status s &&& ~~~(v &&& 0x00000010)) ∧
  [ErrCode.none, .invalidDomain, .invalidRoundCount, .outOfRange, .notConfigured, .illegalCommand, .iterNotActive,
    .iterEnd, .walkCapExceeded].map ErrCode.code = [0, 1, 2, 3, 4, 5, 6, 7, 8] ∧
  readReg .status State.reset = 0

/-! ### Reset -/

/-- O44. The state after reset (70_reset_and_hazards.md R251), as the host reads it, and `PEND` empty. -/
def Obligations.ResetValues : Prop :=
  (∀ reg : Reg, readReg reg State.reset = (if reg = .cfgRounds then 4 else if reg = .caps then 0x00000120 else 0)) ∧
  State.reset.active.valid = false ∧ State.reset.iter.active = false ∧ State.reset.busy = false ∧
  State.reset.status = { overrun := false, fatal := false, err := .none } ∧ State.reset.pend.valid = false

/-- O45. Reset (70_reset_and_hazards.md R250): in every state the reset turn gives every element of the block its reset
value, discards a command in flight and draws no entropy; and `CFG_VALID` goes from 1 to 0 in no other turn. That the
environment is kept is the model's choice (log entry 13). -/
def Obligations.ResetTurn : Prop :=
  (∀ s : State, s.turn = .reset → ∃ t, step s = .next t ∧
    t.staging = State.reset.staging ∧ t.active = State.reset.active ∧ t.results = State.reset.results ∧
    t.iter = State.reset.iter ∧ t.status = State.reset.status ∧ t.busy = false ∧ t.draws = s.draws ∧
    t.host = { s.host with schedule := s.host.schedule.tail }) ∧
  ∀ s t : State, step s = .next t → s.active.valid = true → t.active.valid = false → s.turn = .reset

/-- O46. Entropy is drawn only by a `CONFIG` with S = 1 that passes validation, and then exactly once
(43_cycle_walk_iterator.md R179, 20_memory.md R61). -/
def Obligations.EntropyDrawnOnlyByConfig : Prop :=
  ∀ s t : State, step s = .next t →
    t.draws = s.draws +
      (if s.completing = some (.config .entropy) ∧ s.pend.n ≠ 0 ∧ s.pend.rounds ≠ 0 then 1 else 0)

/-! ### Invariants and whole-machine rules -/

/-- O47. The state after reset meets the invariant (10_state.md R42, R43) and is not fatal. -/
def Obligations.ResetMeetsInvariant : Prop := State.reset.Inv ∧ State.reset.status.fatal = false

/-- O48. Every step keeps the invariant: whenever `CFG_VALID = 1`, `N >= 1`, `K = kbits(N)` and `ROUNDS >= 1`
(10_state.md R42); whenever `ITER_ACTIVE = 1`, `CFG_VALID = 1` and `ITER_IDX <= N` (R43); whenever `FATAL = 1`,
`BUSY = 0`. -/
def Obligations.StepKeepsInvariant : Prop := ∀ s t : State, s.Inv → step s = .next t → t.Inv

/-- O49. No step makes the block fatal (43_cycle_walk_iterator.md R172, on the machine itself): from a state that meets
the invariant and is not fatal, every next state is not fatal. -/
def Obligations.NoStepBecomesFatal : Prop :=
  ∀ s t : State, s.Inv → s.status.fatal = false → step s = .next t → t.status.fatal = false

/-- O50. Only a successful `CONFIG` and reset write the active configuration (10_state.md R28 to R32). -/
def Obligations.OnlyConfigWritesTheConfiguration : Prop :=
  ∀ s t : State, step s = .next t →
    t.active = s.active ∨ (s.turn = .reset ∧ t.active = State.reset.active) ∨
      ∃ src, s.completing = some (.config src) ∧ s.pend.n ≠ 0 ∧ s.pend.rounds ≠ 0 ∧ t.status.err = .none ∧
        t.active.valid = true ∧ t.active.n = s.pend.n ∧ t.active.rounds = s.pend.rounds

/-- O51. Purity (43_cycle_walk_iterator.md R184): two `GET`s with the same operand, with any run between them that
completes no `CONFIG` and holds no reset, write the same result registers. -/
def Obligations.GetIsPure : Prop :=
  ∀ (j : Nat) (s t s' t' : State), Run Instr.keepsConfig j s t → s.pend.op = t.pend.op →
    exec .get s = .next s' → exec .get t = .next t' → s'.status.err = .none →
    t'.status.err = .none ∧ t'.results = s'.results

/-- O52. Determinism (43_cycle_walk_iterator.md R185): two successful `CONFIG`s, in any two states, that leave equal `N`,
`SEED` and `ROUNDS` give the same walk from every index, on the same round function, whichever it is. -/
def Obligations.ConfigDeterminesGet : Prop :=
  ∀ (src src' : SeedSource) (s s' t t' : State),
    exec (.config src) s = .next t → exec (.config src') s' = .next t' →
    t.status.err = .none → t'.status.err = .none →
    t.active.n = t'.active.n → t.active.seed = t'.active.seed → t.active.rounds = t'.active.rounds →
    ∀ (p : Params) (i : Word), t.walk p i = t'.walk p i

/-- O53. Iteration order (43_cycle_walk_iterator.md R183): after `ITER_START`, in any run without `CONFIG`, a further
`ITER_START` or reset, the `ITER_NEXT` after `j` earlier ones delivers `get(j)` with index `j` if `j < N`, whatever
accesses and other commands come between, and gives `ITER_END` with the results kept if `j >= N`. -/
def Obligations.IterationInIndexOrder : Prop :=
  ∀ (j : Nat) (s s0 t u : State), s.Configured → exec .iterStart s = .next s0 → Run Instr.keepsIteration j s0 t →
    t.completing = some .iterNext → step t = .next u →
    (j < s.active.n.toNat →
      u.status.err = .none ∧ u.results.resultIdx.toNat = j ∧
      s.getValue block (BitVec.ofNat 32 j) = some u.results.result ∧ u.iter.idx.toNat = j + 1) ∧
    (s.active.n.toNat ≤ j → u.status.err = .iterEnd ∧ u.results = t.results ∧ u.iter = t.iter)

/-- O54. A host that makes only accesses the bus admits never stops the machine: every step answers a next state, in
which that still holds. -/
def Obligations.ConformingHostNeverStops : Prop :=
  ∀ s : State, s.HostConforms → ∃ t, step s = .next t ∧ t.HostConforms

/-- O55. Completion (60_exceptions.md R210, 70_reset_and_hazards.md R257): from a busy state with a host that makes only
admitted accesses, through any number of its turns, the engine's first turn ends with `BUSY = 0`, and what it completes is
the command that was in flight. -/
def Obligations.BusyEndsAtTheEngineTurn : Prop :=
  ∀ (m : Nat) (rest : List Turn) (s : State), s.HostConforms → s.busy = true →
    s.host.schedule = List.replicate m .host ++ .engine :: rest →
    ∃ t u, core.run m s = .next t ∧ t.pend = s.pend ∧ t.active = s.active ∧
      core.run (m + 1) s = .next u ∧ u.busy = false ∧ u.host.schedule = rest ∧
      completePending exec t.dropTurn = .next u

/-- O56. The expansion of `construct n, seed, rounds` (30_encoding.md R103; the boot sequence of 70_reset_and_hazards.md
R254): from any idle state that is not fatal, with no turns scheduled (log entry 3), and for `n` and `rounds[15:0]` not 0,
its six operations and the one engine step between them leave the block configured with `n`, `seed` and `rounds`, `ERR = NONE` and `BUSY = 0`. -/
def Obligations.ConstructConfiguresTheBlock : Prop :=
  ∀ (n rounds : Word) (seed : Seed) (rest : List HostOp) (s : State),
    s.busy = false → s.status.fatal = false → s.host.schedule = [] →
    s.host.program = construct n seed rounds ++ rest → n ≠ 0 → rounds.setWidth 16 ≠ 0#16 →
    ∃ t, core.run 7 s = .next t ∧ t.active.valid = true ∧ t.active.n = n ∧ t.active.k = kbits n ∧
      t.active.rounds = rounds.setWidth 16 ∧ t.active.seed = seed ∧ t.iter = { idx := 0, active := false } ∧
      t.status.err = .none ∧ t.busy = false ∧ t.results = s.results ∧ t.host.program = rest

/-- O57. The assembler (30_encoding.md R101): each mnemonic stands for its word of R96, `mix` takes a number in 0 to 65535
and refuses a larger one. How a number is spelled in detail is the model's choice (log entry 11). -/
def Obligations.AssemblerWords : Prop :=
  assembleWord ['n', 'o', 'p'] = some 0x00000000 ∧
  assembleWord ['c', 'o', 'n', 'f', 'i', 'g'] = some 0x00000001 ∧
  assembleWord ['c', 'o', 'n', 'f', 'i', 'g', '.', 'e', 'n', 't', 'r', 'o', 'p', 'y'] = some 0x00000011 ∧
  assembleWord ['g', 'e', 't'] = some 0x00000002 ∧
  assembleWord ['i', 't', 'e', 'r', '.', 's', 't', 'a', 'r', 't'] = some 0x00000003 ∧
  assembleWord ['i', 't', 'e', 'r', '.', 'n', 'e', 'x', 't'] = some 0x00000004 ∧
  assembleWord ['c', 'i', 'p', 'h', 'e', 'r'] = some 0x00000005 ∧
  ∀ (cs : List Char) (v : Nat), readNumber cs = some v →
    (v ≤ 65535 → assembleWord (['m', 'i', 'x', ' '] ++ cs) =
      some ((BitVec.ofNat 32 v <<< 16) ||| 0x00000006)) ∧
    (65535 < v → assembleWord (['m', 'i', 'x', ' '] ++ cs) = none)

/-- O58. The other operations of a host program (30_encoding.md R102), on the host's turn: `issue c` is the write of `c`'s
word to `CMD`, `wait` reads `STATUS` and stays while that read shows `BUSY = 1`, any other access has the outcome of the
bus (a refused one is the fault of 20_memory.md R69), and a host with nothing left changes nothing. That a host moves by
turns is the model's (log entries 3, 6, 12 and 17). -/
def Obligations.HostOperations : Prop :=
  (∀ (c : Instr) (rest : List HostOp) (s : State), s.turn = .host → s.host.program = .issue c :: rest →
    step s = .next { writeReg .cmd (encode c) s with
      host := { program := rest, schedule := s.host.schedule.tail, responses := .written .cmd :: s.host.responses } }) ∧
  (∀ (rest : List HostOp) (s : State), s.turn = .host → s.host.program = .wait :: rest →
    step s = .next { s with
      host := { program := if (readReg .status s).getLsbD 0 then .wait :: rest else rest
                schedule := s.host.schedule.tail
                responses := .value .status (readReg .status s) :: s.host.responses } }) ∧
  (∀ (a : Access) (rest : List HostOp) (s : State), s.turn = .host → s.host.program = .access a :: rest →
    (∀ t, busAccess a s = .next t →
      step s = .next { t with
        host := { program := rest, schedule := s.host.schedule.tail, responses := t.host.responses } }) ∧
    ∀ e, busAccess a s = .fault e → step s = .fault e) ∧
  ∀ s : State, s.turn = .host → s.host.program = [] →
    step s = .next { s with host := { s.host with schedule := s.host.schedule.tail } }

/-- O59. The guarantees hold for every `MIX` and every `DEFAULT_ROUNDS` (00_scope.md R8, R9, R19; 10_state.md R42, R43;
43_cycle_walk_iterator.md R172): the state after reset meets the invariant, every step keeps it, and no step from a state
that meets it makes the block fatal. -/
def Obligations.EveryMixKeepsTheGuarantees : Prop :=
  ∀ p : Params, (State.resetWith p).Inv ∧ (State.resetWith p).status.fatal = false ∧
    ∀ s t : State, s.Inv → stepWith p s = .next t → t.Inv ∧ (s.status.fatal = false → t.status.fatal = false)

/-- O60. This block is the machine for its parameters (00_scope.md R8, R9): the completion, the step and the state after
reset are those for `MIX = MIX_REF`, as 41_round_mixer.md R122 writes it, and `DEFAULT_ROUNDS = 4`. The parameter
`DEFAULT_ROUNDS` is what `CFG_ROUNDS` reads after reset, and nothing else of the state after reset depends on a parameter. -/
def Obligations.BlockIsTheMachineForItsParameters : Prop :=
  (∀ (i : Instr) (s : State), exec i s = execWith block i s) ∧ (∀ s : State, step s = stepWith block s) ∧
  State.reset = State.resetWith block ∧ block.defaultRounds = 4 ∧
  (∀ (v : Word) (r : RoundIdx) (lo hi : Word),
    block.mix v r (hi ++ lo) =
      fmix32 (fmix32 (BitVec.ofNat 32 ((v ^^^ lo).toNat + (r.toNat + 1) * 0x9E3779B9)) ^^^ hi)) ∧
  ∀ p : Params, readReg .cfgRounds (State.resetWith p) = 0#16 ++ p.defaultRounds ∧
    State.resetWith p = { State.reset with staging := { State.reset.staging with cfgRounds := p.defaultRounds } }
end

