-- ==== Sys2Proof/Laws/Cipher.lean ====
section
/-! SUPPORT. The small lemmas of the cipher: masking, splitting and recombining, one round and its inverse, and the
rounds in a row. -/

namespace Sys2Proof.Machine

theorem mask_toNat (w : Nat) : (mask w).toNat = 2 ^ min w 32 - 1 := by
  unfold mask
  rw [BitVec.toNat_ofNat]
  rcases Nat.le_total w 32 with h | h
  · rw [Nat.min_eq_left h]
    have h1 : 2 ^ w ≤ 2 ^ 32 := Nat.pow_le_pow_right (by omega) h
    have h2 : 0 < 2 ^ w := Nat.two_pow_pos w
    exact Nat.mod_eq_of_lt (by omega)
  · rw [Nat.min_eq_right h]
    obtain ⟨d, rfl⟩ := Nat.exists_eq_add_of_le h
    have h2 : 0 < 2 ^ d := Nat.two_pow_pos d
    rw [Nat.pow_add, show 2 ^ 32 * 2 ^ d - 1 = (2 ^ 32 - 1) + 2 ^ 32 * (2 ^ d - 1) by
      rw [Nat.mul_sub]; have := Nat.le_mul_of_pos_right (2 ^ 32) h2; omega]
    simp [Nat.add_mul_mod_self_left]

/-- Masking to `w` bits is reduction modulo `2^w` (00_scope.md R13). -/
@[simp] theorem toNat_and_mask (x : Word) (w : Nat) : (x &&& mask w).toNat = x.toNat % 2 ^ w := by
  rw [BitVec.toNat_and, mask_toNat, Nat.and_two_pow_sub_one_eq_mod]
  rcases Nat.le_total w 32 with h | h
  · rw [Nat.min_eq_left h]
  · rw [Nat.min_eq_right h, Nat.mod_eq_of_lt x.isLt,
      Nat.mod_eq_of_lt (Nat.lt_of_lt_of_le x.isLt (Nat.pow_le_pow_right (by omega) h))]

theorem and_mask_lt (x : Word) (w : Nat) : (x &&& mask w).toNat < 2 ^ w := by
  rw [toNat_and_mask]
  exact Nat.mod_lt _ (Nat.two_pow_pos w)

@[simp] theorem and_mask_zero (x : Word) : x &&& mask 0 = 0 := by
  simp [mask]

/-- `a + b = k` (R141). -/
theorem widthHi_add_widthLo (k : Nat) : widthHi k + widthLo k = k := by
  simp only [widthHi, widthLo, Nat.shiftRight_eq_div_pow]
  omega

/-- Each half lies below 2 to its width (R143). -/
def Halves.Fits (h : Halves) : Prop := h.l.toNat < 2 ^ h.wl ∧ h.r.toNat < 2 ^ h.wr

theorem feistelRound_fits (m : MixFn) (seed : Seed) (r : Nat) (h : Halves) (hf : h.Fits) : (feistelRound m seed r h).Fits := by
  refine ⟨hf.2, ?_⟩
  simp only [feistelRound, BitVec.toNat_xor]
  exact Nat.xor_lt_two_pow hf.1 (and_mask_lt _ _)

theorem feistelUnround_fits (m : MixFn) (seed : Seed) (r : Nat) (h : Halves) (hf : h.Fits) : (feistelUnround m seed r h).Fits := by
  refine ⟨?_, hf.1⟩
  simp only [feistelUnround, BitVec.toNat_xor]
  exact Nat.xor_lt_two_pow hf.2 (and_mask_lt _ _)

/-- XOR with a value that depends on the other half only is undone by doing it again (R150). -/
@[simp] theorem feistelUnround_feistelRound (m : MixFn) (seed : Seed) (r : Nat) (h : Halves) :
    feistelUnround m seed r (feistelRound m seed r h) = h := by
  simp [feistelRound, feistelUnround]

@[simp] theorem feistelRound_feistelUnround (m : MixFn) (seed : Seed) (r : Nat) (h : Halves) :
    feistelRound m seed r (feistelUnround m seed r h) = h := by
  simp [feistelRound, feistelUnround]

/-- The last of the rounds, taken off at the end. -/
theorem roundsFrom_succ (m : MixFn) (seed : Seed) (count r : Nat) (h : Halves) :
    roundsFrom m seed (count + 1) r h = feistelRound m seed (r + count) (roundsFrom m seed count r h) := by
  induction count generalizing r h with
  | zero => rfl
  | succ count ih =>
    rw [roundsFrom, ih]
    simp only [roundsFrom]
    rw [show r + 1 + count = r + (count + 1) by omega]

theorem roundsFrom_fits (m : MixFn) (seed : Seed) (count r : Nat) (h : Halves) (hf : h.Fits) :
    (roundsFrom m seed count r h).Fits := by
  induction count with
  | zero => exact hf
  | succ count ih => rw [roundsFrom_succ]; exact feistelRound_fits _ _ _ _ ih

theorem unrounds_fits (m : MixFn) (seed : Seed) (count : Nat) (h : Halves) (hf : h.Fits) :
    (unrounds m seed count h).Fits := by
  induction count generalizing h with
  | zero => exact hf
  | succ count ih => exact ih _ (feistelUnround_fits _ _ _ _ hf)

@[simp] theorem unrounds_roundsFrom (m : MixFn) (seed : Seed) (count : Nat) (h : Halves) :
    unrounds m seed count (roundsFrom m seed count 0 h) = h := by
  induction count with
  | zero => rfl
  | succ count ih => rw [roundsFrom_succ, unrounds, Nat.zero_add, feistelUnround_feistelRound, ih]

@[simp] theorem roundsFrom_unrounds (m : MixFn) (seed : Seed) (count : Nat) (h : Halves) :
    roundsFrom m seed count 0 (unrounds m seed count h) = h := by
  induction count generalizing h with
  | zero => rfl
  | succ count ih => rw [roundsFrom_succ, unrounds, ih, Nat.zero_add, feistelRound_feistelUnround]

/-- Each round swaps the widths, so their parity follows the number of rounds (R143). -/
theorem roundsFrom_widths (m : MixFn) (seed : Seed) (count r : Nat) (h : Halves) :
    ((roundsFrom m seed count r h).wl, (roundsFrom m seed count r h).wr) =
      if count % 2 = 0 then (h.wl, h.wr) else (h.wr, h.wl) := by
  induction count with
  | zero => rfl
  | succ count ih =>
    rw [roundsFrom_succ]
    simp only [feistelRound]
    rcases Nat.mod_two_eq_zero_or_one count with hc | hc <;>
      simp_all [Nat.succ_mod_two_eq_zero_iff]

theorem splitAt_fits (wl wr : Nat) (x : Word) (hx : x.toNat < 2 ^ (wl + wr)) : (splitAt wl wr x).Fits := by
  refine ⟨?_, and_mask_lt _ _⟩
  simp only [splitAt, BitVec.toNat_ushiftRight, Nat.shiftRight_eq_div_pow]
  exact Nat.div_lt_of_lt_mul (by rwa [← Nat.pow_add, Nat.add_comm wr wl])

/-- Recombination as a number: `L * 2^wR + R`. -/
theorem recombine_toNat (h : Halves) (hf : h.Fits) (hw : h.wl + h.wr ≤ 32) :
    (recombine h).toNat = h.l.toNat * 2 ^ h.wr + h.r.toNat := by
  have hb : h.l.toNat * 2 ^ h.wr < 2 ^ 32 := by
    calc h.l.toNat * 2 ^ h.wr < 2 ^ h.wl * 2 ^ h.wr := Nat.mul_lt_mul_of_pos_right hf.1 (Nat.two_pow_pos _)
      _ = 2 ^ (h.wl + h.wr) := (Nat.pow_add ..).symm
      _ ≤ 2 ^ 32 := Nat.pow_le_pow_right (by omega) hw
  rw [recombine, BitVec.toNat_or, BitVec.toNat_shiftLeft, Nat.shiftLeft_eq, Nat.mod_eq_of_lt hb, Nat.mul_comm]
  exact (Nat.two_pow_add_eq_or_of_lt hf.2 _).symm

theorem recombine_lt (h : Halves) (hf : h.Fits) (hw : h.wl + h.wr ≤ 32) :
    (recombine h).toNat < 2 ^ (h.wl + h.wr) := by
  rw [recombine_toNat h hf hw, Nat.pow_add]
  have h1 : h.l.toNat + 1 ≤ 2 ^ h.wl := hf.1
  have h2 := Nat.mul_le_mul_right (2 ^ h.wr) h1
  have h3 := hf.2
  rw [Nat.add_mul] at h2
  omega

@[simp] theorem recombine_splitAt (wl wr : Nat) (x : Word) : recombine (splitAt wl wr x) = x := by
  apply BitVec.eq_of_getLsbD_eq
  intro j hj
  have hm : ∀ i, (mask wr).getLsbD i = decide (i < wr ∧ i < 32) := by
    intro i
    rw [← BitVec.testBit_toNat, mask_toNat, Nat.testBit_two_pow_sub_one]
    simp
  simp only [recombine, splitAt, BitVec.getLsbD_or, BitVec.getLsbD_shiftLeft, BitVec.getLsbD_ushiftRight,
    BitVec.getLsbD_and, hm]
  by_cases hw : j < wr
  · simp [hw, hj]
  · simp [hw, hj, show wr + (j - wr) = j by omega]

theorem splitAt_recombine (h : Halves) (hf : h.Fits) (hw : h.wl + h.wr ≤ 32) :
    splitAt h.wl h.wr (recombine h) = h := by
  have hr := recombine_toNat h hf hw
  obtain ⟨l, r, wl, wr⟩ := h
  simp only [splitAt, Halves.mk.injEq, and_true]
  constructor
  · apply BitVec.eq_of_toNat_eq
    rw [BitVec.toNat_ushiftRight, Nat.shiftRight_eq_div_pow, hr, Nat.mul_comm,
      Nat.mul_add_div (Nat.two_pow_pos _), Nat.div_eq_of_lt hf.2, Nat.add_zero]
  · apply BitVec.eq_of_toNat_eq
    rw [toNat_and_mask, hr, Nat.mul_comm, Nat.mul_add_mod, Nat.mod_eq_of_lt hf.2]

end Sys2Proof.Machine
end

