-- ==== Sys2Proof/Laws/Decode.lean ====
section
/-! SUPPORT. The fields of a word and the word of its fields: each is read back as it was written. -/

namespace Sys2Proof

@[simp] theorem opcField_wordOfFields (ridx : BitVec 16) (rsv : BitVec 11) (s : BitVec 1) (opc : BitVec 4) :
    opcField (wordOfFields ridx rsv s opc) = opc := by
  apply BitVec.eq_of_getLsbD_eq
  intro j hj
  simp only [opcField, wordOfFields, BitVec.getLsbD_extractLsb', BitVec.getLsbD_append]
  simp [hj]

@[simp] theorem sField_wordOfFields (ridx : BitVec 16) (rsv : BitVec 11) (s : BitVec 1) (opc : BitVec 4) :
    sField (wordOfFields ridx rsv s opc) = s := by
  apply BitVec.eq_of_getLsbD_eq
  intro j hj
  obtain rfl : j = 0 := by omega
  simp only [sField, wordOfFields, BitVec.getLsbD_extractLsb', BitVec.getLsbD_append]
  simp

@[simp] theorem rsvField_wordOfFields (ridx : BitVec 16) (rsv : BitVec 11) (s : BitVec 1) (opc : BitVec 4) :
    rsvField (wordOfFields ridx rsv s opc) = rsv := by
  apply BitVec.eq_of_getLsbD_eq
  intro j hj
  simp only [rsvField, wordOfFields, BitVec.getLsbD_extractLsb', BitVec.getLsbD_append]
  rw [if_neg (by omega), if_neg (by omega), if_pos (by omega)]
  simp [hj, show 5 + j - 4 - 1 = j by omega]

@[simp] theorem ridxField_wordOfFields (ridx : BitVec 16) (rsv : BitVec 11) (s : BitVec 1) (opc : BitVec 4) :
    ridxField (wordOfFields ridx rsv s opc) = ridx := by
  apply BitVec.eq_of_getLsbD_eq
  intro j hj
  simp only [ridxField, wordOfFields, BitVec.getLsbD_extractLsb', BitVec.getLsbD_append]
  rw [if_neg (by omega), if_neg (by omega), if_neg (by omega)]
  simp [hj, show 16 + j - 4 - 1 - 11 = j by omega]

/-- A word is made of its four fields, with no bit dropped. -/
theorem wordOfFields_fields (w : Word) : wordOfFields (ridxField w) (rsvField w) (sField w) (opcField w) = w := by
  apply BitVec.eq_of_getLsbD_eq
  intro j hj
  simp only [wordOfFields, opcField, sField, rsvField, ridxField, BitVec.getLsbD_append, BitVec.getLsbD_extractLsb']
  by_cases h1 : j < 4
  · simp [h1]
  by_cases h2 : j < 5
  · obtain rfl : j = 4 := by omega
    simp
  by_cases h3 : j < 16
  · rw [if_neg h1, if_neg (by omega), if_pos (by omega)]
    simp [show j - 4 - 1 < 11 by omega, show 5 + (j - 4 - 1) = j by omega]
  · rw [if_neg h1, if_neg (by omega), if_neg (by omega)]
    simp [show j - 4 - 1 - 11 < 16 by omega, show 16 + (j - 4 - 1 - 11) = j by omega]

/-- The low half of a word does not see the round index. -/
theorem wordOfFields_low (ridx : BitVec 16) (rsv : BitVec 11) (s : BitVec 1) (opc : BitVec 4) :
    wordOfFields ridx rsv s opc &&& 0x0000FFFF = wordOfFields 0 rsv s opc := by
  have hm : ∀ j < 32, (0x0000FFFF : Word).getLsbD j = decide (j < 16) := by decide
  apply BitVec.eq_of_getLsbD_eq
  intro j hj
  rw [BitVec.getLsbD_and, hm j hj]
  simp only [wordOfFields, BitVec.getLsbD_append]
  by_cases h : j < 16
  · simp [h, show j - 4 - 1 < 11 by omega]
  · simp [h, show ¬j < 4 by omega, show ¬j - 4 = 0 by omega, show ¬j - 4 - 1 < 11 by omega]

/-- A register is made of its four byte lanes (20_memory.md R62). -/
theorem wordOfLanes_byteLane (w : Word) :
    wordOfLanes (byteLane w 0) (byteLane w 1) (byteLane w 2) (byteLane w 3) = w := by
  apply BitVec.eq_of_getLsbD_eq
  intro j hj
  simp only [wordOfLanes, byteLane, BitVec.getLsbD_append, BitVec.getLsbD_extractLsb']
  by_cases h1 : j < 8
  · simp [h1]
  by_cases h2 : j < 16
  · rw [if_neg h1, if_pos (by omega)]
    simp [show j - 8 < 8 by omega, show 8 + (j - 8) = j by omega]
  by_cases h3 : j < 24
  · rw [if_neg h1, if_neg (by omega), if_pos (by omega)]
    simp [show j - 8 - 8 < 8 by omega, show 16 + (j - 8 - 8) = j by omega]
  · rw [if_neg h1, if_neg (by omega), if_neg (by omega)]
    simp [show j - 8 - 8 - 8 < 8 by omega, show 24 + (j - 8 - 8 - 8) = j by omega]

end Sys2Proof
end

