-- ==== Sys2Proof/Laws/State.lean ====
section
/-! SUPPORT. What each named update of State leaves in each group of it: one lemma per group per update, so that no
later proof unfolds a record update. Each is proved by `(rfl)` and not by a bare `rfl`, so that simp cites the lemma in its
proof: a rewrite by a bare `rfl` leaves the kernel to compare whole states, and there it would compute the mixer. -/

namespace Sys2Proof.Machine

@[simp] theorem State.accept_staging (w : Word) (s : State) : (s.accept w).staging = s.staging := (rfl)
@[simp] theorem State.accept_active (w : Word) (s : State) : (s.accept w).active = s.active := (rfl)
@[simp] theorem State.accept_results (w : Word) (s : State) : (s.accept w).results = s.results := (rfl)
@[simp] theorem State.accept_iter (w : Word) (s : State) : (s.accept w).iter = s.iter := (rfl)
@[simp] theorem State.accept_status (w : Word) (s : State) : (s.accept w).status = s.status := (rfl)
@[simp] theorem State.accept_pend (w : Word) (s : State) :
    (s.accept w).pend =
      { valid := true, cmd := w, n := s.staging.cfgN, rounds := s.staging.cfgRounds, seed := s.staging.seed,
        op := s.staging.operand } := (rfl)
@[simp] theorem State.accept_draws (w : Word) (s : State) : (s.accept w).draws = s.draws := (rfl)
@[simp] theorem State.accept_host (w : Word) (s : State) : (s.accept w).host = s.host := (rfl)

@[simp] theorem State.finish_staging (e : ErrCode) (s : State) : (s.finish e).staging = s.staging := (rfl)
@[simp] theorem State.finish_active (e : ErrCode) (s : State) : (s.finish e).active = s.active := (rfl)
@[simp] theorem State.finish_results (e : ErrCode) (s : State) : (s.finish e).results = s.results := (rfl)
@[simp] theorem State.finish_iter (e : ErrCode) (s : State) : (s.finish e).iter = s.iter := (rfl)
@[simp] theorem State.finish_status (e : ErrCode) (s : State) : (s.finish e).status = { s.status with err := e } := (rfl)
@[simp] theorem State.finish_pend (e : ErrCode) (s : State) : (s.finish e).pend = { s.pend with valid := false } := (rfl)
@[simp] theorem State.finish_draws (e : ErrCode) (s : State) : (s.finish e).draws = s.draws := (rfl)
@[simp] theorem State.finish_host (e : ErrCode) (s : State) : (s.finish e).host = s.host := (rfl)

@[simp] theorem State.markFatal_staging (s : State) : (s.markFatal).staging = s.staging := (rfl)
@[simp] theorem State.markFatal_active (s : State) : (s.markFatal).active = s.active := (rfl)
@[simp] theorem State.markFatal_results (s : State) : (s.markFatal).results = s.results := (rfl)
@[simp] theorem State.markFatal_iter (s : State) : (s.markFatal).iter = s.iter := (rfl)
@[simp] theorem State.markFatal_status (s : State) : (s.markFatal).status = { s.status with fatal := true } := (rfl)
@[simp] theorem State.markFatal_pend (s : State) : (s.markFatal).pend = s.pend := (rfl)
@[simp] theorem State.markFatal_draws (s : State) : (s.markFatal).draws = s.draws := (rfl)
@[simp] theorem State.markFatal_host (s : State) : (s.markFatal).host = s.host := (rfl)

@[simp] theorem State.setOverrun_staging (b : Bool) (s : State) : (s.setOverrun b).staging = s.staging := (rfl)
@[simp] theorem State.setOverrun_active (b : Bool) (s : State) : (s.setOverrun b).active = s.active := (rfl)
@[simp] theorem State.setOverrun_results (b : Bool) (s : State) : (s.setOverrun b).results = s.results := (rfl)
@[simp] theorem State.setOverrun_iter (b : Bool) (s : State) : (s.setOverrun b).iter = s.iter := (rfl)
@[simp] theorem State.setOverrun_status (b : Bool) (s : State) : (s.setOverrun b).status =
    { s.status with overrun := b } := (rfl)
@[simp] theorem State.setOverrun_pend (b : Bool) (s : State) : (s.setOverrun b).pend = s.pend := (rfl)
@[simp] theorem State.setOverrun_draws (b : Bool) (s : State) : (s.setOverrun b).draws = s.draws := (rfl)
@[simp] theorem State.setOverrun_host (b : Bool) (s : State) : (s.setOverrun b).host = s.host := (rfl)

@[simp] theorem State.writeResults_staging (v i c : Word) (s : State) : (s.writeResults v i c).staging = s.staging := (rfl)
@[simp] theorem State.writeResults_active (v i c : Word) (s : State) : (s.writeResults v i c).active = s.active := (rfl)
@[simp] theorem State.writeResults_results (v i c : Word) (s : State) : (s.writeResults v i c).results =
    { result := v, resultIdx := i, walks := c } := (rfl)
@[simp] theorem State.writeResults_iter (v i c : Word) (s : State) : (s.writeResults v i c).iter = s.iter := (rfl)
@[simp] theorem State.writeResults_status (v i c : Word) (s : State) : (s.writeResults v i c).status = s.status := (rfl)
@[simp] theorem State.writeResults_pend (v i c : Word) (s : State) : (s.writeResults v i c).pend = s.pend := (rfl)
@[simp] theorem State.writeResults_draws (v i c : Word) (s : State) : (s.writeResults v i c).draws = s.draws := (rfl)
@[simp] theorem State.writeResults_host (v i c : Word) (s : State) : (s.writeResults v i c).host = s.host := (rfl)

@[simp] theorem State.install_staging (n : Word) (k : BitVec 6) (r : RoundIdx) (x : Seed) (s : State) :
    (s.install n k r x).staging = s.staging := (rfl)
@[simp] theorem State.install_active (n : Word) (k : BitVec 6) (r : RoundIdx) (x : Seed) (s : State) :
    (s.install n k r x).active =
      { n := n, k := k, rounds := r, seedLo := x.extractLsb' 0 32, seedHi := x.extractLsb' 32 32, valid := true } := (rfl)
@[simp] theorem State.install_results (n : Word) (k : BitVec 6) (r : RoundIdx) (x : Seed) (s : State) :
    (s.install n k r x).results = s.results := (rfl)
@[simp] theorem State.install_iter (n : Word) (k : BitVec 6) (r : RoundIdx) (x : Seed) (s : State) :
    (s.install n k r x).iter = s.iter := (rfl)
@[simp] theorem State.install_status (n : Word) (k : BitVec 6) (r : RoundIdx) (x : Seed) (s : State) :
    (s.install n k r x).status = s.status := (rfl)
@[simp] theorem State.install_pend (n : Word) (k : BitVec 6) (r : RoundIdx) (x : Seed) (s : State) :
    (s.install n k r x).pend = s.pend := (rfl)
@[simp] theorem State.install_draws (n : Word) (k : BitVec 6) (r : RoundIdx) (x : Seed) (s : State) :
    (s.install n k r x).draws = s.draws := (rfl)
@[simp] theorem State.install_host (n : Word) (k : BitVec 6) (r : RoundIdx) (x : Seed) (s : State) :
    (s.install n k r x).host = s.host := (rfl)

@[simp] theorem State.setIter_staging (i : Word) (b : Bool) (s : State) : (s.setIter i b).staging = s.staging := (rfl)
@[simp] theorem State.setIter_active (i : Word) (b : Bool) (s : State) : (s.setIter i b).active = s.active := (rfl)
@[simp] theorem State.setIter_results (i : Word) (b : Bool) (s : State) : (s.setIter i b).results = s.results := (rfl)
@[simp] theorem State.setIter_iter (i : Word) (b : Bool) (s : State) : (s.setIter i b).iter =
    { idx := i, active := b } := (rfl)
@[simp] theorem State.setIter_status (i : Word) (b : Bool) (s : State) : (s.setIter i b).status = s.status := (rfl)
@[simp] theorem State.setIter_pend (i : Word) (b : Bool) (s : State) : (s.setIter i b).pend = s.pend := (rfl)
@[simp] theorem State.setIter_draws (i : Word) (b : Bool) (s : State) : (s.setIter i b).draws = s.draws := (rfl)
@[simp] theorem State.setIter_host (i : Word) (b : Bool) (s : State) : (s.setIter i b).host = s.host := (rfl)

@[simp] theorem State.countDraw_staging (s : State) : (s.countDraw).staging = s.staging := (rfl)
@[simp] theorem State.countDraw_active (s : State) : (s.countDraw).active = s.active := (rfl)
@[simp] theorem State.countDraw_results (s : State) : (s.countDraw).results = s.results := (rfl)
@[simp] theorem State.countDraw_iter (s : State) : (s.countDraw).iter = s.iter := (rfl)
@[simp] theorem State.countDraw_status (s : State) : (s.countDraw).status = s.status := (rfl)
@[simp] theorem State.countDraw_pend (s : State) : (s.countDraw).pend = s.pend := (rfl)
@[simp] theorem State.countDraw_draws (s : State) : (s.countDraw).draws = s.draws + 1 := (rfl)
@[simp] theorem State.countDraw_host (s : State) : (s.countDraw).host = s.host := (rfl)

@[simp] theorem State.setStaging_staging (g : Staging) (s : State) : (s.setStaging g).staging = g := (rfl)
@[simp] theorem State.setStaging_active (g : Staging) (s : State) : (s.setStaging g).active = s.active := (rfl)
@[simp] theorem State.setStaging_results (g : Staging) (s : State) : (s.setStaging g).results = s.results := (rfl)
@[simp] theorem State.setStaging_iter (g : Staging) (s : State) : (s.setStaging g).iter = s.iter := (rfl)
@[simp] theorem State.setStaging_status (g : Staging) (s : State) : (s.setStaging g).status = s.status := (rfl)
@[simp] theorem State.setStaging_pend (g : Staging) (s : State) : (s.setStaging g).pend = s.pend := (rfl)
@[simp] theorem State.setStaging_draws (g : Staging) (s : State) : (s.setStaging g).draws = s.draws := (rfl)
@[simp] theorem State.setStaging_host (g : Staging) (s : State) : (s.setStaging g).host = s.host := (rfl)

@[simp] theorem State.respond_staging (r : Response) (s : State) : (s.respond r).staging = s.staging := (rfl)
@[simp] theorem State.respond_active (r : Response) (s : State) : (s.respond r).active = s.active := (rfl)
@[simp] theorem State.respond_results (r : Response) (s : State) : (s.respond r).results = s.results := (rfl)
@[simp] theorem State.respond_iter (r : Response) (s : State) : (s.respond r).iter = s.iter := (rfl)
@[simp] theorem State.respond_status (r : Response) (s : State) : (s.respond r).status = s.status := (rfl)
@[simp] theorem State.respond_pend (r : Response) (s : State) : (s.respond r).pend = s.pend := (rfl)
@[simp] theorem State.respond_draws (r : Response) (s : State) : (s.respond r).draws = s.draws := (rfl)
@[simp] theorem State.respond_host (r : Response) (s : State) : (s.respond r).host =
    { s.host with responses := r :: s.host.responses } := (rfl)

@[simp] theorem State.setProgram_staging (p : List HostOp) (s : State) : (s.setProgram p).staging = s.staging := (rfl)
@[simp] theorem State.setProgram_active (p : List HostOp) (s : State) : (s.setProgram p).active = s.active := (rfl)
@[simp] theorem State.setProgram_results (p : List HostOp) (s : State) : (s.setProgram p).results = s.results := (rfl)
@[simp] theorem State.setProgram_iter (p : List HostOp) (s : State) : (s.setProgram p).iter = s.iter := (rfl)
@[simp] theorem State.setProgram_status (p : List HostOp) (s : State) : (s.setProgram p).status = s.status := (rfl)
@[simp] theorem State.setProgram_pend (p : List HostOp) (s : State) : (s.setProgram p).pend = s.pend := (rfl)
@[simp] theorem State.setProgram_draws (p : List HostOp) (s : State) : (s.setProgram p).draws = s.draws := (rfl)
@[simp] theorem State.setProgram_host (p : List HostOp) (s : State) : (s.setProgram p).host =
    { s.host with program := p } := (rfl)

@[simp] theorem State.setSchedule_staging (ts : List Turn) (s : State) : (s.setSchedule ts).staging = s.staging := (rfl)
@[simp] theorem State.setSchedule_active (ts : List Turn) (s : State) : (s.setSchedule ts).active = s.active := (rfl)
@[simp] theorem State.setSchedule_results (ts : List Turn) (s : State) : (s.setSchedule ts).results = s.results := (rfl)
@[simp] theorem State.setSchedule_iter (ts : List Turn) (s : State) : (s.setSchedule ts).iter = s.iter := (rfl)
@[simp] theorem State.setSchedule_status (ts : List Turn) (s : State) : (s.setSchedule ts).status = s.status := (rfl)
@[simp] theorem State.setSchedule_pend (ts : List Turn) (s : State) : (s.setSchedule ts).pend = s.pend := (rfl)
@[simp] theorem State.setSchedule_draws (ts : List Turn) (s : State) : (s.setSchedule ts).draws = s.draws := (rfl)
@[simp] theorem State.setSchedule_host (ts : List Turn) (s : State) : (s.setSchedule ts).host =
    { s.host with schedule := ts } := (rfl)

@[simp] theorem State.dropTurn_staging (s : State) : (s.dropTurn).staging = s.staging := (rfl)
@[simp] theorem State.dropTurn_active (s : State) : (s.dropTurn).active = s.active := (rfl)
@[simp] theorem State.dropTurn_results (s : State) : (s.dropTurn).results = s.results := (rfl)
@[simp] theorem State.dropTurn_iter (s : State) : (s.dropTurn).iter = s.iter := (rfl)
@[simp] theorem State.dropTurn_status (s : State) : (s.dropTurn).status = s.status := (rfl)
@[simp] theorem State.dropTurn_pend (s : State) : (s.dropTurn).pend = s.pend := (rfl)
@[simp] theorem State.dropTurn_draws (s : State) : (s.dropTurn).draws = s.draws := (rfl)
@[simp] theorem State.dropTurn_host (s : State) : (s.dropTurn).host =
    { s.host with schedule := s.host.schedule.tail } := (rfl)

@[simp] theorem State.resetBlock_staging (p : Params) (s : State) : (s.resetBlock p).staging = (State.resetWith p).staging := (rfl)
@[simp] theorem State.resetBlock_active (p : Params) (s : State) : (s.resetBlock p).active = (State.resetWith p).active := (rfl)
@[simp] theorem State.resetBlock_results (p : Params) (s : State) : (s.resetBlock p).results = (State.resetWith p).results := (rfl)
@[simp] theorem State.resetBlock_iter (p : Params) (s : State) : (s.resetBlock p).iter = (State.resetWith p).iter := (rfl)
@[simp] theorem State.resetBlock_status (p : Params) (s : State) : (s.resetBlock p).status = (State.resetWith p).status := (rfl)
@[simp] theorem State.resetBlock_pend (p : Params) (s : State) : (s.resetBlock p).pend = (State.resetWith p).pend := (rfl)
@[simp] theorem State.resetBlock_draws (p : Params) (s : State) : (s.resetBlock p).draws = s.draws := (rfl)
@[simp] theorem State.resetBlock_host (p : Params) (s : State) : (s.resetBlock p).host = s.host := (rfl)

/-- `BUSY` is `PEND.VALID`. -/
theorem State.busy_eq (s : State) : s.busy = s.pend.valid := (rfl)

@[simp] theorem State.busy_accept (w : Word) (s : State) : (s.accept w).busy = true := (rfl)
@[simp] theorem State.busy_finish (e : ErrCode) (s : State) : (s.finish e).busy = false := (rfl)
@[simp] theorem State.busy_dropTurn (s : State) : s.dropTurn.busy = s.busy := (rfl)

end Sys2Proof.Machine
end

