-- ==== Sys2Proof/Laws/Exec.lean ====
section
/-! SUPPORT. What a command can do, for any parameters: every command answers a next state, and the cases of that state. -/

namespace Sys2Proof.Machine

@[simp] theorem succeed_eq (s : State) : succeed s = .next (s.finish .none) := (rfl)

@[simp] theorem raise_eq (e : ErrCode) (s : State) : raise e s = .next (s.finish e) := (rfl)

@[simp] theorem fatal_eq (e : ErrCode) (s : State) : fatal e s = .next (s.markFatal.finish e) := (rfl)

/-- Taking the seed of a `CONFIG` changes nothing but the position of the entropy port (R179). -/
@[simp] theorem State.afterSeed_groups (src : SeedSource) (s : State) :
    (s.afterSeed src).staging = s.staging ∧ (s.afterSeed src).active = s.active ∧
      (s.afterSeed src).results = s.results ∧ (s.afterSeed src).iter = s.iter ∧
      (s.afterSeed src).status = s.status ∧ (s.afterSeed src).pend = s.pend ∧
      (s.afterSeed src).host = s.host ∧
      (s.afterSeed src).draws = s.draws + (if src = .entropy then 1 else 0) := by
  cases src <;> exact ⟨rfl, rfl, rfl, rfl, rfl, rfl, rfl, rfl⟩

/-- The state in which a command leaves `s`, for each command: an outcome code alone, a failed walk, or the writes of its
success. -/
inductive Completion (p : Params) (s : State) : Instr → State → Prop where
  /-- `NOP` -/
  | nop : Completion p s .nop (s.finish .none)
  /-- an error code alone (60_exceptions.md R214) -/
  | raised (i : Instr) (e : ErrCode) (ne : e ≠ .none) (notCap : e ≠ .walkCapExceeded) (listed : e ∈ i.outcomes) :
      Completion p s i (s.finish e)
  /-- the fatal code (60_exceptions.md R217) -/
  | fatal (i : Instr) (walks : i = .get ∨ i = .iterNext) (idx : Word) (valid : s.active.valid = true)
      (inRange : idx.toNat < s.active.n.toNat) (cap : s.walk p idx = none) :
      Completion p s i (s.markFatal.finish .walkCapExceeded)
  | config (src : SeedSource) (hn : s.pend.n ≠ 0) (hr : s.pend.rounds ≠ 0) :
      Completion p s (.config src)
        ((((s.afterSeed src).install s.pend.n (kbits s.pend.n) s.pend.rounds (s.configSeed src)).setIter 0 false).finish
          .none)
  | get (v : Word) (c : Nat) (valid : s.active.valid = true) (inRange : s.pend.op.toNat < s.active.n.toNat)
      (walked : s.walk p s.pend.op = some (v, c)) :
      Completion p s .get ((s.writeResults v s.pend.op (BitVec.ofNat 32 c)).finish .none)
  | iterStart (valid : s.active.valid = true) : Completion p s .iterStart ((s.setIter 0 true).finish .none)
  | iterNext (v : Word) (c : Nat) (valid : s.active.valid = true) (active : s.iter.active = true)
      (inRange : s.iter.idx.toNat < s.active.n.toNat) (walked : s.walk p s.iter.idx = some (v, c)) :
      Completion p s .iterNext
        (((s.writeResults v s.iter.idx (BitVec.ofNat 32 c)).setIter (s.iter.idx + 1) true).finish .none)
  | cipher (valid : s.active.valid = true) (inRange : s.pend.op.toNat < 2 ^ s.active.k.toNat) :
      Completion p s .cipher ((s.writeResults (s.F p s.pend.op) s.pend.op 1).finish .none)
  | mix (r : RoundIdx) (valid : s.active.valid = true) :
      Completion p s (.mix r) ((s.writeResults (p.mix s.pend.op r s.active.seed) s.pend.op 0).finish .none)

/-- The dispatch of this block is the completion for this block's parameters. -/
theorem exec_eq_execWith (i : Instr) (s : State) : exec i s = execWith block i s := by cases i <;> rfl

theorem exec_fun_eq : exec = execWith block := funext fun i => funext (exec_eq_execWith i)

/-- Every command answers a next state, and it is one of those cases. -/
theorem execWith_completion (p : Params) (i : Instr) (s : State) : ∃ t, execWith p i s = .next t ∧ Completion p s i t := by
  have raised : ∀ i e, e ≠ ErrCode.none → e ≠ ErrCode.walkCapExceeded → e ∈ Instr.outcomes i →
      ∃ t, raise e s = .next t ∧ Completion p s i t := fun i e h1 h2 h3 => ⟨_, rfl, .raised i e h1 h2 h3⟩
  cases i with
  | nop => exact ⟨_, rfl, .nop⟩
  | config src =>
    rw [execWith, execConfig, State.configN, State.configRounds]
    by_cases hn : s.pend.n = 0
    · rw [if_pos hn]; exact raised _ _ (by decide) (by decide) (by simp [Instr.outcomes])
    rw [if_neg hn]
    by_cases hr : s.pend.rounds = 0
    · rw [if_pos hr]; exact raised _ _ (by decide) (by decide) (by simp [Instr.outcomes])
    rw [if_neg hr]
    exact ⟨_, rfl, .config src hn hr⟩
  | get =>
    rw [execWith, execGetWith, State.getIndex]
    cases hv : s.active.valid with
    | false => rw [if_pos rfl]; exact raised _ _ (by decide) (by decide) (by simp [Instr.outcomes])
    | true =>
      rw [if_neg (by decide)]
      by_cases hr : s.active.n.toNat ≤ s.pend.op.toNat
      · rw [if_pos hr]; exact raised _ _ (by decide) (by decide) (by simp [Instr.outcomes])
      rw [if_neg hr]
      cases hw : s.walk p s.pend.op with
      | none => exact ⟨_, rfl, .fatal _ (.inl rfl) s.pend.op hv (by omega) hw⟩
      | some vc => exact ⟨_, rfl, .get vc.1 vc.2 hv (by omega) hw⟩
  | iterStart =>
    rw [execWith, execIterStart]
    cases hv : s.active.valid with
    | false => rw [if_pos rfl]; exact raised _ _ (by decide) (by decide) (by simp [Instr.outcomes])
    | true => rw [if_neg (by decide)]; exact ⟨_, rfl, .iterStart hv⟩
  | iterNext =>
    rw [execWith, execIterNextWith]
    cases hv : s.active.valid with
    | false => rw [if_pos rfl]; exact raised _ _ (by decide) (by decide) (by simp [Instr.outcomes])
    | true =>
      rw [if_neg (by decide)]
      cases ha : s.iter.active with
      | false => rw [if_pos rfl]; exact raised _ _ (by decide) (by decide) (by simp [Instr.outcomes])
      | true =>
        rw [if_neg (by decide)]
        by_cases hr : s.active.n.toNat ≤ s.iter.idx.toNat
        · rw [if_pos hr]; exact raised _ _ (by decide) (by decide) (by simp [Instr.outcomes])
        rw [if_neg hr]
        cases hw : s.walk p s.iter.idx with
        | none => exact ⟨_, rfl, .fatal _ (.inr rfl) s.iter.idx hv (by omega) hw⟩
        | some vc => exact ⟨_, rfl, .iterNext vc.1 vc.2 hv ha (by omega) hw⟩
  | cipher =>
    rw [execWith, execCipherWith, State.cipherInput]
    cases hv : s.active.valid with
    | false => rw [if_pos rfl]; exact raised _ _ (by decide) (by decide) (by simp [Instr.outcomes])
    | true =>
      rw [if_neg (by decide)]
      by_cases hr : 2 ^ s.active.k.toNat ≤ s.pend.op.toNat
      · rw [if_pos hr]; exact raised _ _ (by decide) (by decide) (by simp [Instr.outcomes])
      rw [if_neg hr]
      exact ⟨_, rfl, .cipher hv (by omega)⟩
  | mix r =>
    rw [execWith, execMixWith, State.mixValue]
    cases hv : s.active.valid with
    | false => rw [if_pos rfl]; exact raised _ _ (by decide) (by decide) (by simp [Instr.outcomes])
    | true => rw [if_neg (by decide)]; exact ⟨_, rfl, .mix r hv⟩

/-- If a command answers `t`, then `t` is one of those cases. -/
theorem execWith_cases {p : Params} {i : Instr} {s t : State} (h : execWith p i s = .next t) : Completion p s i t := by
  obtain ⟨t', ht, hc⟩ := execWith_completion p i s
  rw [h] at ht
  cases ht
  exact hc

theorem exec_completion (i : Instr) (s : State) : ∃ t, exec i s = .next t ∧ Completion block s i t := by
  rw [exec_eq_execWith]
  exact execWith_completion block i s

theorem exec_cases {i : Instr} {s t : State} (h : exec i s = .next t) : Completion block s i t :=
  execWith_cases (by rwa [exec_eq_execWith] at h)

/-- The completion of the latched command: an illegal word, or a command (60_exceptions.md R210). -/
theorem completePendingWith_cases (p : Params) (s : State) :
    ∃ t, completePending (execWith p) s = .next t ∧
      ((∃ why, decode s.pend.cmd = .illegal why ∧ t = s.finish .illegalCommand) ∨
        ∃ i, decode s.pend.cmd = .legal i ∧ execWith p i s = .next t ∧ Completion p s i t) := by
  unfold completePending
  cases h : decode s.pend.cmd with
  | illegal why => exact ⟨_, rfl, .inl ⟨why, rfl, rfl⟩⟩
  | legal i =>
    obtain ⟨t, ht, hc⟩ := execWith_completion p i s
    exact ⟨t, ht, .inr ⟨i, rfl, ht, hc⟩⟩

theorem completePending_cases (s : State) :
    ∃ t, completePending exec s = .next t ∧
      ((∃ why, decode s.pend.cmd = .illegal why ∧ t = s.finish .illegalCommand) ∨
        ∃ i, decode s.pend.cmd = .legal i ∧ exec i s = .next t ∧ Completion block s i t) := by
  rw [exec_fun_eq]
  exact completePendingWith_cases block s

/-- What every completion keeps, and that it ends with `BUSY = 0`. -/
theorem Completion.frame {p : Params} {i : Instr} {s t : State} (h : Completion p s i t) :
    t.staging = s.staging ∧ t.host = s.host ∧ t.status.overrun = s.status.overrun ∧
      t.pend = { s.pend with valid := false } := by
  cases h <;> simp

/-- A command other than `CONFIG` keeps the active configuration and draws no entropy. -/
theorem Completion.keeps_active {p : Params} {i : Instr} {s t : State} (h : Completion p s i t) (hi : ∀ src, i ≠ .config src) :
    t.active = s.active ∧ t.draws = s.draws := by
  cases h
  case config src _ _ => exact absurd rfl (hi src)
  all_goals simp

end Sys2Proof.Machine
end

