-- ==== Sys2Proof/Laws/PerInstr.lean ====
section
/-! SUPPORT. Per instruction: the word of every command belongs to the command's row of the opcode table. -/

namespace Sys2Proof.Laws.EncodeInRow

/-- The encoded word has the bits that spec/opcode_table.json fixes for the instruction's row. -/
def Statement (i : Instr) : Prop := i.row.holds (encode i) = true

theorem nop : Statement .nop := rfl

theorem config (src : SeedSource) : Statement (.config src) := by cases src <;> rfl

theorem get : Statement .get := rfl

theorem iterStart : Statement .iterStart := rfl

theorem iterNext : Statement .iterNext := rfl

theorem cipher : Statement .cipher := rfl

theorem mix (r : RoundIdx) : Statement (.mix r) := by
  simp only [Statement, Instr.row, TableRow.holds, encode, wordOfFields_low, beq_iff_eq]
  decide

end Sys2Proof.Laws.EncodeInRow
end

