-- ==== Sys2Proof/Laws/Window.lean ====
section
/-! SUPPORT. What an access of the window and the host's turn can do. -/

namespace Sys2Proof.Machine

@[simp] theorem Reg.ofOffset_offset (reg : Reg) : Reg.ofOffset reg.offset = some reg := by
  cases reg <;> rfl

theorem Reg.offset_of_ofOffset {off : Offset} {reg : Reg} (h : Reg.ofOffset off = some reg) : off = reg.offset := by
  apply BitVec.eq_of_toNat_eq
  unfold Reg.ofOffset at h
  split at h
  case h_18 => cases h
  all_goals
    rename_i he
    obtain rfl := Option.some.inj h
    rw [he]
    decide

/-- A register is at exactly the aligned offsets up to 0x40 (20_memory.md R66, R67). -/
theorem Reg.ofOffset_isSome (off : Offset) :
    (Reg.ofOffset off).isSome = (off.toNat % 4 == 0 && decide (off.toNat ≤ 0x40)) := by
  revert off
  decide

/-- Writing a register never touches what the engine writes (20_memory.md R65). -/
theorem writeReg_keeps (reg : Reg) (v : Word) (s : State) :
    (writeReg reg v s).active = s.active ∧ (writeReg reg v s).results = s.results ∧ (writeReg reg v s).iter = s.iter ∧
      (writeReg reg v s).status.err = s.status.err ∧ (writeReg reg v s).status.fatal = s.status.fatal ∧
      (writeReg reg v s).draws = s.draws ∧ (writeReg reg v s).host = s.host := by
  cases reg <;> simp only [writeReg, offerCommand] <;> (repeat' split) <;> simp

/-- Writing a register changes the latch only by acceptance: a word written to `CMD` while `BUSY = 0` and `FATAL = 0`. -/
theorem writeReg_pend (reg : Reg) (v : Word) (s : State) :
    (writeReg reg v s).pend = s.pend ∨
      (reg = .cmd ∧ s.busy = false ∧ s.status.fatal = false ∧ writeReg reg v s = s.accept v) := by
  cases reg
  case cmd =>
    simp only [writeReg, offerCommand]
    cases hf : s.status.fatal <;> cases hb : s.busy <;> simp
  case status =>
    simp only [writeReg]
    split <;> simp
  all_goals exact .inl rfl

/-- The 32-bit read at a register's offset (20_memory.md R66). -/
@[simp] theorem busAccess_read (reg : Reg) (s : State) :
    busAccess (.read reg.offset .w32) s = .next (s.respond (.value reg (readReg reg s))) := by
  simp only [busAccess, Access.target, Access.width, Access.off, Reg.ofOffset_offset]

/-- The 32-bit write at a register's offset (20_memory.md R66). -/
@[simp] theorem busAccess_write (reg : Reg) (v : Word) (s : State) :
    busAccess (.write reg.offset (.word v)) s = .next ((writeReg reg v s).respond (.written reg)) := by
  simp only [busAccess, Access.target, Access.width, Access.off, BusData.width, Reg.ofOffset_offset]

/-- A command offered while `FATAL = 1` (60_exceptions.md R212). -/
theorem offerCommand_fatal {w : Word} {s : State} (hf : s.status.fatal = true) : offerCommand w s = s := by
  simp only [offerCommand, hf, if_true]

/-- A command offered while `BUSY = 1` (60_exceptions.md R211). -/
theorem offerCommand_busy {w : Word} {s : State} (hf : s.status.fatal = false) (hb : s.busy = true) :
    offerCommand w s = s.setOverrun true := by
  simp only [offerCommand, hf, hb, if_true, Bool.false_eq_true, if_false]

/-- A command accepted (60_exceptions.md R210). -/
theorem offerCommand_idle {w : Word} {s : State} (hf : s.status.fatal = false) (hb : s.busy = false) :
    offerCommand w s = s.accept w := by
  simp only [offerCommand, hf, hb, Bool.false_eq_true, if_false]

/-- Reading and writing a register see and touch nothing of the host's side. -/
theorem readReg_host (reg : Reg) (s : State) (h : HostSide) : readReg reg { s with host := h } = readReg reg s := by
  cases reg <;> rfl

theorem writeReg_host (reg : Reg) (v : Word) (s : State) (h : HostSide) :
    writeReg reg v { s with host := h } = { writeReg reg v s with host := h } := by
  cases reg
  case cmd =>
    cases hf : s.status.fatal with
    | true =>
      exact (offerCommand_fatal (s := { s with host := h }) hf).trans (by rw [writeReg, offerCommand_fatal hf])
    | false =>
      cases hb : s.busy with
      | true =>
        exact (offerCommand_busy (s := { s with host := h }) hf hb).trans
          (by rw [writeReg, offerCommand_busy hf hb]; rfl)
      | false =>
        exact (offerCommand_idle (s := { s with host := h }) hf hb).trans
          (by rw [writeReg, offerCommand_idle hf hb]; rfl)
  case status =>
    by_cases hv : v.getLsbD 4 = true
    · simp only [writeReg, hv, if_true]; rfl
    · simp only [writeReg, hv]; rfl
  all_goals rfl

/-- What an access does: it is refused, it reads a register, or it writes one. -/
theorem busAccess_cases (a : Access) (s : State) :
    (a.target = none ∧ busAccess a s = .fault (.busError a.off a.width)) ∨
      (∃ reg, a = .read reg.offset .w32 ∧ busAccess a s = .next (s.respond (.value reg (readReg reg s)))) ∨
      ∃ reg v, a = .write reg.offset (.word v) ∧ busAccess a s = .next ((writeReg reg v s).respond (.written reg)) := by
  unfold busAccess
  cases a with
  | read off width =>
    cases width <;> simp only [Access.target, Access.width, Access.off]
    case w32 =>
      cases h : Reg.ofOffset off with
      | none => simp
      | some reg => exact .inr (.inl ⟨reg, by rw [Reg.offset_of_ofOffset h], rfl⟩)
    all_goals simp
  | write off data =>
    cases data <;> simp only [Access.target, Access.width, Access.off, BusData.width]
    case word v =>
      cases h : Reg.ofOffset off with
      | none => simp
      | some reg => exact .inr (.inr ⟨reg, v, by rw [Reg.offset_of_ofOffset h], rfl⟩)
    all_goals simp

/-- A well-formed access reaches a register. -/
theorem Access.target_isSome (a : Access) : a.target.isSome = a.wellFormed := by
  have h : ∀ b : Access, b.target = if b.width = .w32 then Reg.ofOffset b.off else none := by
    intro b
    unfold Access.target
    cases b.width <;> rfl
  rw [h a, Access.wellFormed]
  by_cases hw : a.width = .w32
  · simp [hw, Reg.ofOffset_isSome]
  · simp [hw]

theorem Reg.write_wellFormed (reg : Reg) (v : Word) : (Access.write reg.offset (.word v)).wellFormed = true := by
  have h : reg.offset.toNat % 4 = 0 ∧ reg.offset.toNat ≤ 0x40 := by cases reg <;> decide
  simp [Access.wellFormed, Access.width, BusData.width, Access.off, h]

/-- An operation other than a raw access is always admitted. -/
theorem HostOp.toAccess_wellFormed (op : HostOp) (h : op.wellFormed = true) : op.toAccess.wellFormed = true := by
  cases op with
  | access a => exact h
  | wr reg v => exact Reg.write_wellFormed reg v
  | rd reg => cases reg <;> decide
  | issue c => exact Reg.write_wellFormed .cmd (encode c)
  | wait => decide

/-- The host's turn: nothing to do, a refused access, or an access answered. -/
theorem hostStep_cases (s : State) :
    (s.host.program = [] ∧ hostStep s = .next s) ∨
      ∃ op rest, s.host.program = op :: rest ∧
        ((op.toAccess.target = none ∧ hostStep s = .fault (.busError op.toAccess.off op.toAccess.width)) ∨
          (∃ reg, op.toAccess = .read reg.offset .w32 ∧
            hostStep s =
              .next ((s.respond (.value reg (readReg reg s))).setProgram (op.remaining s.busy rest))) ∨
          ∃ reg v, op.toAccess = .write reg.offset (.word v) ∧
            hostStep s =
              .next (((writeReg reg v s).respond (.written reg)).setProgram (op.remaining s.busy rest))) := by
  cases hp : s.host.program with
  | nil => exact .inl ⟨rfl, by simp only [hostStep, hp]⟩
  | cons op rest =>
    refine .inr ⟨op, rest, rfl, ?_⟩
    rcases busAccess_cases op.toAccess s with ⟨ht, h⟩ | ⟨reg, ha, h⟩ | ⟨reg, v, ha, h⟩
    · exact .inl ⟨ht, by simp only [hostStep, hp, h]⟩
    · exact .inr (.inl ⟨reg, ha, by simp only [hostStep, hp, h]⟩)
    · exact .inr (.inr ⟨reg, v, ha, by simp only [hostStep, hp, h]⟩)

end Sys2Proof.Machine
end

