-- ==== Sys2Proof/Laws/Step.lean ====
section
/-! SUPPORT. What a step can do, by whose turn it is. -/

namespace Sys2Proof.Machine

/-- A step on the reset turn. -/
theorem stepWith_reset {p : Params} {s : State} (h : s.turn = .reset) : stepWith p s = .next (s.dropTurn.resetBlock p) := by
  simp [stepWith, takeTurn, h]

/-- A step on the host's turn. -/
theorem stepWith_host {p : Params} {s : State} (h : s.turn = .host) : stepWith p s = hostStep s.dropTurn := by
  simp [stepWith, takeTurn, h]

/-- A step on the engine's turn. -/
theorem stepWith_engine {p : Params} {s : State} (h : s.turn = .engine) :
    stepWith p s = if s.busy then completePending (execWith p) s.dropTurn else .next s.dropTurn := by
  simp [stepWith, takeTurn, h, engineStep]

/-- The state in which a step leaves `s`, by whose turn it is. -/
inductive Stepped (p : Params) (s : State) : State → Prop where
  | reset (turn : s.turn = .reset) : Stepped p s (s.dropTurn.resetBlock p)
  /-- the host has nothing left to do -/
  | hostIdle (turn : s.turn = .host) (none : s.host.program = []) : Stepped p s s.dropTurn
  | hostRead (turn : s.turn = .host) (op : HostOp) (rest : List HostOp) (reg : Reg)
      (program : s.host.program = op :: rest) (access : op.toAccess = .read reg.offset .w32) :
      Stepped p s ((s.dropTurn.respond (.value reg (readReg reg s.dropTurn))).setProgram (op.remaining s.busy rest))
  | hostWrite (turn : s.turn = .host) (op : HostOp) (rest : List HostOp) (reg : Reg) (v : Word)
      (program : s.host.program = op :: rest) (access : op.toAccess = .write reg.offset (.word v)) :
      Stepped p s (((writeReg reg v s.dropTurn).respond (.written reg)).setProgram (op.remaining s.busy rest))
  | engineIdle (turn : s.turn = .engine) (idle : s.busy = false) : Stepped p s s.dropTurn
  | illegal (turn : s.turn = .engine) (busy : s.busy = true) (why : IllegalReason)
      (word : decode s.pend.cmd = .illegal why) : Stepped p s (s.dropTurn.finish .illegalCommand)
  | completed (turn : s.turn = .engine) (busy : s.busy = true) (i : Instr) (word : decode s.pend.cmd = .legal i) (t : State)
      (run : execWith p i s.dropTurn = .next t) (cases : Completion p s.dropTurn i t) : Stepped p s t

/-- If a step answers `t`, then `t` is one of those cases. -/
theorem stepWith_cases {p : Params} {s t : State} (h : stepWith p s = .next t) : Stepped p s t := by
  cases ht : s.turn with
  | reset =>
    rw [stepWith_reset ht] at h
    exact Host.Outcome.next.inj h ▸ .reset ht
  | host =>
    rw [stepWith_host ht] at h
    rcases hostStep_cases s.dropTurn with ⟨hp, hs⟩ | ⟨op, rest, hp, ⟨_, hs⟩ | ⟨reg, ha, hs⟩ | ⟨reg, v, ha, hs⟩⟩
    · exact Host.Outcome.next.inj (hs.symm.trans h) ▸ .hostIdle ht hp
    · cases hs.symm.trans h
    · exact Host.Outcome.next.inj (hs.symm.trans h) ▸ .hostRead ht op rest reg hp ha
    · exact Host.Outcome.next.inj (hs.symm.trans h) ▸ .hostWrite ht op rest reg v hp ha
  | engine =>
    rw [stepWith_engine ht] at h
    cases hb : s.busy with
    | false =>
      rw [hb] at h
      exact Host.Outcome.next.inj h ▸ .engineIdle ht hb
    | true =>
      rw [hb, if_pos rfl] at h
      obtain ⟨t', ht', ⟨why, hd, rfl⟩ | ⟨i, hd, he, hc⟩⟩ := completePendingWith_cases p s.dropTurn
      · exact Host.Outcome.next.inj (ht'.symm.trans h) ▸ .illegal ht hb why hd
      · exact Host.Outcome.next.inj (ht'.symm.trans h) ▸ .completed ht hb i hd t' he hc

/-- The step of this block is the step for this block's parameters. -/
theorem step_eq_stepWith (s : State) : step s = stepWith block s := by
  rw [step, stepWith, exec_fun_eq]

/-- A step on the reset turn. -/
theorem step_reset {s : State} (h : s.turn = .reset) : step s = .next (s.dropTurn.resetBlock block) := by
  rw [step_eq_stepWith, stepWith_reset h]

/-- A step on the host's turn. -/
theorem step_host {s : State} (h : s.turn = .host) : step s = hostStep s.dropTurn := by
  rw [step_eq_stepWith, stepWith_host h]

/-- A step on the engine's turn. -/
theorem step_engine {s : State} (h : s.turn = .engine) :
    step s = if s.busy then completePending exec s.dropTurn else .next s.dropTurn := by
  rw [step_eq_stepWith, stepWith_engine h, exec_fun_eq]

theorem step_cases {s t : State} (h : step s = .next t) : Stepped block s t :=
  stepWith_cases (by rwa [step_eq_stepWith] at h)

/-- A run peels off its first step, for any machine. -/
theorem coreRun_next (M : Host.Core) {m : Nat} {s t : M.State} (h : M.step s = .next t) : M.run (m + 1) s = M.run m t := by
  rw [Host.Core.run, h]

/-- A run of this machine peels off its first step. -/
theorem run_next {m : Nat} {s t : State} (h : step s = .next t) : core.run (m + 1) s = core.run m t := coreRun_next core h

end Sys2Proof.Machine
end

