-- ==== Sys2Proof/Laws/Walk.lean ====
section
/-! SUPPORT. What the loop of R171 answers: the first application that lands below `N`, or nothing if the cap comes
first. -/

namespace Sys2Proof.Machine

theorem walkLoop_lt {f : Word → Word} {n : Word} {left : Nat} {v : Word} {c : Nat} (h : v.toNat < n.toNat) :
    walkLoop f n left v c = some (v, c) := by
  unfold walkLoop
  simp [h]

theorem walkLoop_zero {f : Word → Word} {n : Word} {v : Word} {c : Nat} (h : n.toNat ≤ v.toNat) :
    walkLoop f n 0 v c = none := by
  unfold walkLoop
  simp [Nat.not_lt.mpr h]

theorem walkLoop_succ {f : Word → Word} {n : Word} {left : Nat} {v : Word} {c : Nat} (h : n.toNat ≤ v.toNat) :
    walkLoop f n (left + 1) v c = walkLoop f n left (f v) (c + 1) := by
  rw [walkLoop]
  simp [Nat.not_lt.mpr h]

/-- Where the `j`-th further application is the first below `N`, and the cap allows it, the loop answers it. -/
theorem walkLoop_of_first {f : Word → Word} {n : Word} (j : Nat) {left : Nat} {v : Word} {c : Nat} (hj : j ≤ left)
    (hin : (f^[j] v).toNat < n.toNat) (hout : ∀ i < j, n.toNat ≤ (f^[i] v).toNat) :
    walkLoop f n left v c = some (f^[j] v, c + j) := by
  induction j generalizing left v c with
  | zero => exact walkLoop_lt hin
  | succ j ih =>
    obtain ⟨left, rfl⟩ : ∃ l, left = l + 1 := ⟨left - 1, by omega⟩
    have h0 : n.toNat ≤ v.toNat := hout 0 (by omega)
    have hj' : f^[j + 1] v = f^[j] (f v) := rfl
    rw [walkLoop_succ h0, hj', ih (by omega) hin fun i hi => hout (i + 1) (by omega), Nat.add_assoc, Nat.add_comm 1 j]

/-- What an answer of the loop says. -/
theorem walkLoop_some {f : Word → Word} {n : Word} {left : Nat} {v : Word} {c : Nat} {w : Word} {d : Nat}
    (h : walkLoop f n left v c = some (w, d)) :
    ∃ j, j ≤ left ∧ w = f^[j] v ∧ d = c + j ∧ w.toNat < n.toNat ∧ ∀ i < j, n.toNat ≤ (f^[i] v).toNat := by
  induction left generalizing v c with
  | zero =>
    by_cases hv : v.toNat < n.toNat
    · rw [walkLoop_lt hv] at h
      simp only [Option.some.injEq, Prod.mk.injEq] at h
      exact ⟨0, Nat.le_refl _, h.1.symm, h.2.symm, h.1 ▸ hv, by simp⟩
    · rw [walkLoop_zero (by omega)] at h
      cases h
  | succ left ih =>
    by_cases hv : v.toNat < n.toNat
    · rw [walkLoop_lt hv] at h
      simp only [Option.some.injEq, Prod.mk.injEq] at h
      exact ⟨0, Nat.zero_le _, h.1.symm, h.2.symm, h.1 ▸ hv, by simp⟩
    · rw [walkLoop_succ (by omega)] at h
      obtain ⟨j, hj, hw, hd, hlt, hout⟩ := ih h
      refine ⟨j + 1, by omega, hw, by omega, hlt, ?_⟩
      rintro (_ | i) hi
      · exact Nat.not_lt.mp hv
      · exact hout i (by omega)

/-- The walked value lies below `N`. -/
theorem walk_lt {p : Params} {s : State} {i v : Word} {c : Nat} (h : s.walk p i = some (v, c)) : v.toNat < s.active.n.toNat :=
  let ⟨_, _, _, _, hlt, _⟩ := walkLoop_some h
  hlt

/-- The walk reads nothing of the state but the active configuration (R170). -/
theorem walk_congr (p : Params) {s t : State} (h : s.active = t.active) (i : Word) : s.walk p i = t.walk p i := by
  unfold State.walk State.F
  rw [h]

end Sys2Proof.Machine
end

