-- ==== Sys2Proof/Tests/Slice0.lean ====
section
/-! SUPPORT. The model's own tests. Expected values come from spec/ (named at each test), never from the model. First the
encodings and the well-formedness checks, then the commands, then a witness for the hypotheses of each obligation. -/

namespace Sys2Proof.Tests

open Sys2Proof.Machine

/-! ### Helpers -/

/-- The next state of an outcome. -/
def state? : Result → Option State
  | .next s => some s
  | .fault _ => none
  | .refused _ => none

/-- The fault of an outcome. -/
def fault? : Result → Option Fault
  | .next _ => none
  | .fault e => some e
  | .refused _ => none

/-- A configured idle block, with the operand `op` latched. -/
def conf (n seed : Word) (rounds : RoundIdx) (op : Word) : State :=
  { State.reset with
    active := { n := n, k := kbits n, rounds := rounds, seedLo := seed, seedHi := 0, valid := true }
    pend := { State.reset.pend with op := op } }

/-- The word `w` in flight. -/
def busyWith (w : Word) (s : State) : State := { s with pend := { s.pend with valid := true, cmd := w } }

/-- An active iteration at index `i`. -/
def iterating (i : Word) (s : State) : State := s.setIter i true

/-- A host with the operations `p` to make. -/
def hosted (p : List HostOp) (s : State) : State := s.setProgram p

/-- The result registers after an outcome. -/
def resultsOf (r : Result) : Option (Word × Word × Word) :=
  (state? r).map fun s => (s.results.result, s.results.resultIdx, s.results.walks)

/-- A register as the host reads it after an outcome. -/
def readOf (reg : Reg) (r : Result) : Option Word := (state? r).map (readReg reg)

/-- The next state of an outcome that has one. -/
def got (r : Result) : State := (state? r).getD State.reset

theorem next_got {r : Result} (h : (state? r).isSome = true) : r = .next (got r) := by
  cases r <;> first | rfl | simp [state?] at h

/-- The state after a step that gives one. -/
def after (s : State) : State := got (step s)

theorem allows_of {allowed : Instr → Bool} {s : State} (reset : s.turn ≠ .reset)
    (all : (match s.completing with | some i => allowed i | none => true) = true) : s.Allows allowed := by
  refine ⟨reset, fun i h => ?_⟩
  rw [h] at all
  exact all

theorem run_on {allowed : Instr → Bool} {j k : Nat} {s t u : State} (before : Run allowed j s t)
    (ok : t.Allows allowed) (now : step t = .next u) (count : (if t.completing = some .iterNext then j + 1 else j) = k) :
    Run allowed k s u := count ▸ .more before ok now

/-! ### Decoding: words written bit by bit from the encodings of 30_encoding.md R90 and R96 -/

theorem test_decode_nop : decode 0b0000000000000000_00000000000_0_0000 = .legal .nop := by decide

theorem test_decode_config : decode 0b0000000000000000_00000000000_0_0001 = .legal (.config .staging) := by decide

theorem test_decode_config_entropy : decode 0b0000000000000000_00000000000_1_0001 = .legal (.config .entropy) := by decide

theorem test_decode_get : decode 0b0000000000000000_00000000000_0_0010 = .legal .get := by decide

theorem test_decode_iter_start : decode 0b0000000000000000_00000000000_0_0011 = .legal .iterStart := by decide

theorem test_decode_iter_next : decode 0b0000000000000000_00000000000_0_0100 = .legal .iterNext := by decide

theorem test_decode_cipher : decode 0b0000000000000000_00000000000_0_0101 = .legal .cipher := by decide

theorem test_decode_mix : decode 0b1010000000000001_00000000000_0_0110 = .legal (.mix 0xA001) := by decide

/-- The host's reading of a table row. -/
theorem test_decode_table_word :
    decodeTableWord 32 0x00030006 = some (.mix 3) ∧ decodeTableWord 32 0x00000007 = none := by decide

/-! ### Ill-formed terms, each refused by name (95_test_vectors.md 2.7 and 2.8) -/

theorem test_illformed_reserved_bit_5 : legalWord 0x00000020 = false ∧ decode 0x00000020 = .illegal .reservedBits := by
  decide

theorem test_illformed_reserved_bit_15 : legalWord 0x00008006 = false ∧ decode 0x00008006 = .illegal .reservedBits := by
  decide

theorem test_illformed_seed_source : legalWord 0x00000012 = false ∧ decode 0x00000012 = .illegal .seedSource := by decide

theorem test_illformed_seed_source_mix : legalWord 0x00000016 = false ∧ decode 0x00000016 = .illegal .seedSource := by
  decide

theorem test_illformed_round_index : legalWord 0x80000002 = false ∧ decode 0x80000002 = .illegal .roundIndex := by decide

theorem test_illformed_round_index_config : legalWord 0x00010001 = false ∧ decode 0x00010001 = .illegal .roundIndex := by
  decide

theorem test_illformed_opcode :
    ([0x7, 0x8, 0x9, 0xA, 0xB, 0xC, 0xD, 0xE, 0xF] : List Word).map (fun w => (legalWord w, decode w)) =
      List.replicate 9 (false, .illegal .reservedOpcode) := by decide

theorem test_illformed_access_width :
    (Access.write 0x08 (.byte 1)).wellFormed = false ∧
      fault? (busAccess (.write 0x08 (.byte 1)) .reset) = some (.busError 0x08 .w8) := by decide

theorem test_illformed_access_alignment :
    (Access.read 0x0A .w32).wellFormed = false ∧
      fault? (busAccess (.read 0x0A .w32) .reset) = some (.busError 0x0A .w32) := by decide

theorem test_illformed_access_reserved :
    (Access.read 0x44 .w32).wellFormed = false ∧ (Access.write 0xFC (.word 0)).wellFormed = false ∧
      fault? (busAccess (.write 0xFC (.word 0)) .reset) = some (.busError 0xFC .w32) := by decide

theorem test_illformed_host_operation :
    (HostOp.access (.read 0x10 .w64)).wellFormed = false ∧ (HostOp.access (.read 0x40 .w32)).wellFormed = true := by decide

/-- The assembler (30_encoding.md R101), and spellings that it refuses. -/
theorem test_assembler :
    assembleWord ['m', 'i', 'x', ' ', '6', '5', '5', '3', '5'] = some 0xFFFF0006 ∧
      assembleWord ['m', 'i', 'x', ' ', '0', 'x', 'a'] = some 0x000A0006 ∧
      assembleWord ['m', 'i', 'x', ' ', '6', '5', '5', '3', '6'] = none ∧
      assembleWord ['m', 'i', 'x'] = none ∧ assembleWord ['g', 'e', 't', 's'] = none ∧
      assembleWord ['N', 'O', 'P'] = none := by decide

/-- The encoding of a pseudo-instruction (30_encoding.md R102, R103). -/
theorem test_program_encoding :
    encodeProgram (getv 3) =
      [.write 0x18 (.word 3), .write 0x00 (.word 0x00000002), .read 0x04 .w32, .read 0x04 .w32, .read 0x1C .w32] := by
  decide

/-! ### The commands (95_test_vectors.md sections 1, 2 and 3) -/

/-- P4: `NOP` clears `ERR` and nothing else. -/
theorem test_nop_clears_err :
    readOf .status (exec .nop { conf 8 42 4 0 with status := { overrun := true, fatal := false, err := .outOfRange } }) =
      some 0x00000012 := by decide

/-- 2.5: `CONFIG` at the largest domain size and round count. -/
theorem test_config_largest :
    let r := exec (.config .staging)
      { State.reset with
        pend := { valid := true, cmd := 1, n := 0xFFFFFFFF, rounds := 0xFFFF, seed := 0x1_0000002A, op := 0 } }
    readOf .k r = some 32 ∧ readOf .rounds r = some 65535 ∧ readOf .seedLo r = some 42 ∧ readOf .seedHi r = some 1 ∧
      readOf .status r = some 2 := by decide

/-- 2.5: a failing `CONFIG` of a configured block keeps the configuration. -/
theorem test_config_zero_domain :
    let r := exec (.config .entropy) (conf 8 42 4 0)
    readOf .status r = some 0x102 ∧ readOf .n r = some 8 ∧ (state? r).map State.draws = some 0 := by decide

/-- P2: the walk 1, 5, 7, 6, 0 of length 4. -/
theorem test_get_longest_walk : resultsOf (exec .get (conf 5 7 1 1)) = some (0, 1, 4) := by decide

/-- 2.4: `get(0x8000_0000)` with `N = 0x8000_0001`, and `get(N)`. -/
theorem test_get_wide :
    resultsOf (exec .get (conf 0x80000001 42 4 0x80000000)) = some (0x49F4F54B, 0x80000000, 1) ∧
      readOf .status (exec .get (conf 0x80000001 42 4 0x80000001)) = some 0x302 := by decide

/-- R181: a restart from index 3. -/
theorem test_iter_start_restarts :
    let r := exec .iterStart (iterating 3 (conf 8 42 4 0))
    readOf .iterIdx r = some 0 ∧ readOf .status r = some 6 := by decide

/-- 2.6: the eighth element of S1 exhausts the iteration. -/
theorem test_iter_next_last :
    let r := exec .iterNext (iterating 7 (conf 8 42 4 0))
    resultsOf r = some (0, 7, 1) ∧ readOf .iterIdx r = some 8 ∧ readOf .status r = some 0x00E := by decide

/-- 2.6: the ninth gives `ITER_END` and moves nothing. -/
theorem test_iter_next_end :
    let r := exec .iterNext (iterating 8 (conf 8 42 4 0))
    readOf .status r = some 0x70E ∧ readOf .iterIdx r = some 8 := by decide

/-- 42_domain_cipher.md R153's worked example, and P2's value above `N`. -/
theorem test_cipher_example :
    resultsOf (exec .cipher (conf 8 42 4 5)) = some (3, 5, 1) ∧
      resultsOf (exec .cipher (conf 5 7 1 5)) = some (7, 5, 1) := by decide

/-- 2.3: `K = 32` accepts every operand; with `K = 3` the operand 8 is out of range. -/
theorem test_cipher_range :
    resultsOf (exec .cipher (conf 0xFFFFFFFF 42 4 0xFFFFFFFF)) = some (0xD800E2EB, 0xFFFFFFFF, 1) ∧
      readOf .status (exec .cipher (conf 8 42 4 8)) = some 0x302 := by decide

/-- 41_round_mixer.md R125's worked example. -/
theorem test_mix_example : resultsOf (exec (.mix 3) (conf 8 42 4 5)) = some (0x00A7B0D3, 5, 0) := by decide

/-- 2.1: all-ones inputs, and both seed words set. -/
theorem test_mix_ref :
    mixRef 0xFFFFFFFF 65535 0xFFFFFFFF_FFFFFFFF = 0xE1A0B733 ∧ mixRef 0x12345678 7 0x01234567_89ABCDEF = 0x6A6F6CA7 := by
  decide

/-- 2.2 and 2.3: bit widths, and an odd `K` with odd `ROUNDS`, whose halves are recombined with swapped widths. -/
theorem test_cipher_tables :
    [1, 2, 3, 4, 5, 8, 9, 17, 1000003, 0x80000000, 0x80000001, 0xFFFFFFFF].map (fun n : Word => (kbits n).toNat) =
        [0, 1, 2, 2, 3, 3, 4, 5, 20, 31, 32, 32] ∧
      [0, 1, 2, 3, 4, 5, 6, 7].map (cipher mixRef 3 1 7) = [3, 5, 2, 4, 1, 7, 0, 6] := by decide

/-- 2.3: `Finv(3) = 5`. -/
theorem test_cipher_inverse : cipherInv mixRef 3 4 42 3 = 5 := by decide

/-! ### The window, the life of a command and reset (95_test_vectors.md 2.8) -/

/-- P2: the host reads `RESULT`, `WALKS` and `K` as the `GET` left them. -/
theorem test_host_reads :
    let t := got (exec .get (conf 5 7 1 1))
    (readReg .result t, readReg .resultIdx t, readReg .walks t, readReg .n t, readReg .k t, readReg .rounds t) =
      (0, 1, 4, 5, 3, 1) := by decide

/-- P2: the host's `wr OPERAND, 5`. -/
theorem test_host_writes_operand :
    readOf .operand (step (hosted [.wr .operand 5] (conf 5 7 1 1))) = some 5 := by decide

theorem test_cfg_rounds_high_bits :
    readReg .cfgRounds (writeReg .cfgRounds 0xFFFF0003 .reset) = 3 := by decide

theorem test_status_write :
    let s := { conf 8 42 4 0 with status := { overrun := true, fatal := false, err := .outOfRange } }
    readReg .status s = 0x312 ∧ readReg .status (writeReg .status 0xFFFFFFFF s) = 0x302 := by decide

/-- P4: a second command while one is in flight is dropped, and `OVERRUN` is set. -/
theorem test_overrun :
    let s := { busyWith 0x2 (conf 8 42 4 0) with host := { program := [.issue .cipher], schedule := [.host], responses := [] } }
    readOf .status (step s) = some 0x13 ∧ (state? (step s)).map (fun t => t.pend.cmd) = some 2 := by decide

theorem test_reset_discards_command :
    let s := { busyWith 0x2 (conf 8 42 4 0) with host := { program := [], schedule := [.reset], responses := [] } }
    readOf .status (step s) = some 0 ∧ readOf .n (step s) = some 0 ∧ readOf .cfgRounds (step s) = some 4 := by decide

/-- Each command placed by `withFetchWord` runs in the next step. -/
theorem test_fetch_word :
    readOf .status (step (State.reset.withFetchWord 32 0x00000003)) = some 0x400 ∧
      readOf .status (step (State.reset.withFetchWord 32 0x00000007)) = some 0x500 := by decide

/-! ### Witnesses: for each obligation with hypotheses, concrete inputs that meet them, at the edges of their ranges -/

theorem witness_O2 :
    let w : Word := 0x00000006 + 0x10
    (w ≠ 0 ∧ w ≠ 1 ∧ w ≠ 0x11 ∧ w ≠ 2 ∧ w ≠ 3 ∧ w ≠ 4 ∧ w ≠ 5) ∧ w &&& 0xFFFF ≠ 6 := by decide

theorem witness_O3 : (Instr.mix 0xFFFF).row.holds 0xFFFF0006 = true ∧ (Instr.config .entropy).row.holds 0x11 = true := by
  decide

theorem witness_O5 :
    let s := busyWith 0x4 (conf 8 42 4 0)
    s.turn = .engine ∧ s.busy = true ∧ decode s.pend.cmd = .legal .iterNext := by decide

theorem witness_O6 :
    let s := busyWith 0x12 (conf 8 42 4 0)
    (decode 0x12 = .illegal .seedSource ∧ State.reset.status.fatal = false ∧ State.reset.busy = false) ∧
      s.turn = .engine ∧ s.busy = true ∧ decode s.pend.cmd = .illegal .seedSource := by decide

theorem witness_O7 : State.reset.busy = false ∧ State.reset.status.fatal = false := by decide

theorem witness_O8 :
    let s := busyWith 0x2 (conf 8 42 4 0)
    (s.busy = true ∧ s.status.fatal = false) ∧
      ∃ t, step (s.setOverrun true) = .next t ∧ (s.setOverrun true).status.overrun = true :=
  ⟨by decide, _, rfl, rfl⟩

theorem witness_O8_cleared :
    let s := (hosted [.wr .status 0x10] (conf 8 42 4 0)).setOverrun true
    ∃ t, step s = .next t ∧ s.status.overrun = true ∧ t.status.overrun = false :=
  ⟨_, rfl, rfl, rfl⟩

theorem witness_O9 :
    let s := (hosted [.issue .nop] (conf 8 42 4 0)).markFatal
    s.status.fatal = true ∧ s.busy = false ∧ s.turn ≠ .reset ∧ ∃ t, step s = .next t :=
  ⟨rfl, rfl, by decide, _, rfl⟩

theorem witness_O10 :
    let s := { busyWith 0x2 (conf 8 42 4 0) with host := { program := [.issue .cipher], schedule := [.host], responses := [] } }
    s.turn = .host ∧ s.busy = true ∧ ∃ t, step s = .next t :=
  ⟨rfl, rfl, _, rfl⟩

theorem witness_O13 :
    let s := hosted [.issue .get] (conf 8 42 4 0)
    s.busy = false ∧ ({ s.pend with cmd := 7, op := 9 } : Pend).valid = false ∧ ∃ t, step s = .next t :=
  ⟨rfl, rfl, _, rfl⟩

theorem witness_O13_fault :
    let s := hosted [.access (.read 0x44 .w32)] (conf 8 42 4 0)
    s.busy = false ∧ step s = .fault (.busError 0x44 .w32) :=
  ⟨rfl, rfl⟩

/-- A legal command with `ConfigInv`, and an illegal word. -/
theorem witness_O15 :
    (conf 1 42 4 0).ConfigInv ∧ (∃ t, exec .get (conf 1 42 4 0) = .next t) ∧
      ∃ t, decode (busyWith 0x7 (conf 1 42 4 0)).pend.cmd = .illegal .reservedOpcode ∧
        completePending exec (busyWith 0x7 (conf 1 42 4 0)) = .next t :=
  ⟨by decide, ⟨_, rfl⟩, _, rfl, rfl⟩

/-- The codes that a completion leaves: an error, none, and the fatal one, which takes a state that no run reaches (`K`
below `kbits(N)`). -/
theorem witness_O16 :
    let err (s : State) := (state? (completePending exec (busyWith 0x2 s))).map fun t => t.status.err
    err (conf 8 42 4 8) = some .outOfRange ∧ err (conf 8 42 4 7) = some .none ∧
      err { conf 5 42 4 4 with active := { (conf 5 42 4 4).active with k := 2 } } = some .walkCapExceeded := by decide

/-- Each clause of O17, two at the edge of their range. -/
theorem witness_O17 :
    decode (busyWith 0xF (conf 8 42 4 0)).pend.cmd = .illegal .reservedOpcode ∧
      (busyWith 0x6 State.reset).active.valid = false ∧ decode (busyWith 0x6 State.reset).pend.cmd = .legal (.mix 0) ∧
      (let s := busyWith 0x4 (conf 8 42 4 0);
        decode s.pend.cmd = .legal .iterNext ∧ s.active.valid = true ∧ s.iter.active = false) ∧
      (let s := busyWith 0x1 (conf 8 42 4 0);
        decode s.pend.cmd = .legal (.config .staging) ∧ s.pend.n = 0 ∧ s.pend.rounds = 0) ∧
      (let s := busyWith 0x11 { conf 8 42 4 0 with pend := { State.reset.pend with n := 1 } };
        decode s.pend.cmd = .legal (.config .entropy) ∧ s.pend.n ≠ 0 ∧ s.pend.rounds = 0) ∧
      (let s := busyWith 0x2 (conf 8 42 4 8);
        decode s.pend.cmd = .legal .get ∧ s.active.valid = true ∧ s.active.n.toNat ≤ s.pend.op.toNat) ∧
      (let s := busyWith 0x5 (conf 5 42 4 8);
        decode s.pend.cmd = .legal .cipher ∧ s.active.valid = true ∧ 2 ^ s.active.k.toNat ≤ s.pend.op.toNat) ∧
      (let s := busyWith 0x4 (iterating 8 (conf 8 42 4 0));
        decode s.pend.cmd = .legal .iterNext ∧ s.active.valid = true ∧ s.iter.active = true ∧
          s.active.n.toNat ≤ s.iter.idx.toNat) := by decide

theorem witness_O17_access : ∃ t, busAccess (.write 0x40 (.word 7)) (conf 8 42 4 0) = .next t := ⟨_, rfl⟩

theorem witness_O19 :
    let s := { State.reset with pend := { State.reset.pend with n := 0xFFFFFFFF, rounds := 1 } }
    s.pend.n ≠ 0 ∧ s.pend.rounds ≠ 0 := by decide

theorem witness_O20 :
    (conf 8 42 4 0).pend.n = 0 ∧
      (let s := { State.reset with pend := { State.reset.pend with n := 1 } };
        s.pend.n ≠ 0 ∧ s.pend.rounds = 0) := by decide

/-- `GET` at both ends of `[0, N)`, with `N` the least and the greatest domain size. -/
theorem witness_O21 :
    ((conf 1 42 4 0).Configured ∧ (conf 1 42 4 0).pend.op.toNat < (conf 1 42 4 0).active.n.toNat) ∧
      ((conf 0xFFFFFFFF 42 4 0xFFFFFFFE).Configured ∧
        (conf 0xFFFFFFFF 42 4 0xFFFFFFFE).pend.op.toNat < (conf 0xFFFFFFFF 42 4 0xFFFFFFFE).active.n.toNat) := by decide

/-- Each clause of O22: -1, `N` (which is -1 for the greatest `N`), 0 and `N - 1` (which are one index for `N = 1`). -/
theorem witness_O22 :
    ((conf 8 42 4 0xFFFFFFFF).Configured ∧ (conf 8 42 4 0xFFFFFFFF).pend.op = 0xFFFFFFFF) ∧
      ((conf 0xFFFFFFFF 42 4 0xFFFFFFFF).Configured ∧
        (conf 0xFFFFFFFF 42 4 0xFFFFFFFF).pend.op = (conf 0xFFFFFFFF 42 4 0xFFFFFFFF).active.n) ∧
      ((conf 1 42 4 0).Configured ∧ (conf 1 42 4 0).pend.op = 0 ∧
        (conf 1 42 4 0).pend.op = (conf 1 42 4 0).active.n - 1) := by decide

theorem witness_O23 : (conf 1 42 4 0).active.valid = true ∧ (conf 1 42 4 0).ConfigInv := by decide

/-- The last element of the greatest domain, after which `ITER_IDX` is 0xFFFFFFFF, and one that is not the last. -/
theorem witness_O24 :
    (let s := iterating 0xFFFFFFFE (conf 0xFFFFFFFF 42 4 0);
      s.Configured ∧ s.iter.active = true ∧ s.iter.idx.toNat < s.active.n.toNat ∧
        s.iter.idx.toNat + 1 = s.active.n.toNat) ∧
      (let s := iterating 6 (conf 8 42 4 0);
        s.Configured ∧ s.iter.active = true ∧ s.iter.idx.toNat < s.active.n.toNat ∧
          s.iter.idx.toNat + 1 ≠ s.active.n.toNat) := by decide

theorem witness_O25 :
    (let s := conf 8 42 4 0;
      s.active.valid = true ∧ s.iter.active = false) ∧
      (let s := iterating 8 (conf 8 42 4 0);
        s.active.valid = true ∧ s.iter.active = true ∧ s.active.n.toNat ≤ s.iter.idx.toNat) := by decide

/-- Each clause of O26: the last operand of `[0, 2^K)`, the first above it, `K = 32` and `K = 0`. -/
theorem witness_O26 :
    ((conf 5 42 4 7).active.valid = true ∧ (conf 5 42 4 7).pend.op.toNat < 2 ^ (conf 5 42 4 7).active.k.toNat) ∧
      2 ^ (conf 5 42 4 8).active.k.toNat ≤ (conf 5 42 4 8).pend.op.toNat ∧ (conf 0x80000001 42 4 0).active.k = 32 ∧
      (conf 1 42 4 0).active.k = 0 := by decide

theorem witness_O26_next :
    (∃ t, exec .cipher (conf 0x80000001 42 4 0xFFFFFFFF) = .next t) ∧ ∃ t, exec .cipher (conf 1 42 4 1) = .next t :=
  ⟨⟨_, rfl⟩, _, rfl⟩

theorem witness_O27 : (conf 8 42 4 5).active.valid = true := by decide

theorem witness_O28 : Instr.get ≠ .nop ∧ (∀ src, Instr.get ≠ .config src) ∧ State.reset.active.valid = false := by
  refine ⟨by decide, ?_, by decide⟩
  intro src
  cases src <;> decide

theorem witness_O30 : (1 : Word) ≠ 0 ∧ (0xFFFFFFFF : Word) ≠ 0 := by decide

/-- `K = 0` and `K = 32`, for O31, O32 and O33. -/
theorem witness_O31_O32_O33 :
    (0 ≤ 32 ∧ (0 : Word).toNat < 2 ^ 0) ∧ 32 ≤ 32 ∧ (0xFFFFFFFF : Word).toNat < 2 ^ 32 := by decide

theorem witness_O34 : (conf 1 42 4 0).Configured ∧ (conf 1 42 4 0).active.n = 1 := by decide

theorem witness_O35 :
    ({ l := 0, r := 1, wl := 0, wr := 1 } : Halves).wl = 0 ∧ (1 : Word).toNat < 2 := by decide

theorem witness_O36 : (0 : Word).toNat < (1 : Word).toNat ∧ (0xFFFFFFFE : Word).toNat < (0xFFFFFFFF : Word).toNat := by
  decide

theorem witness_O37 : (conf 5 7 1 0).Configured ∧ (4 : Word).toNat < (conf 5 7 1 0).active.n.toNat := by decide

/-- Each clause of O38: `F(0) = 3`, below 5, and `F(1) = 5`, not below 5 (95_test_vectors.md 2.3). -/
theorem witness_O38 :
    (let s := conf 5 7 1 0;
      s.Configured ∧ s.pend.op.toNat < s.active.n.toNat ∧ resultsOf (exec .cipher s) = some (3, 0, 1) ∧
        resultsOf (exec .get s) = some (3, 0, 1)) ∧
      (let s := conf 5 7 1 1;
        s.Configured ∧ s.pend.op.toNat < s.active.n.toNat ∧ resultsOf (exec .cipher s) = some (5, 1, 1) ∧
          resultsOf (exec .get s) = some (0, 1, 4)) := by decide

theorem witness_O39 :
    let s := conf 8 42 4 1
    (3 < s.active.rounds.toNat ∧ s.active.valid = true ∧ s.pend.op = ({ l := 2, r := 1, wl := 2, wr := 1 } : Halves).r) ∧
      ∃ t, exec (.mix (BitVec.ofNat 16 3)) s = .next t :=
  ⟨by decide, _, rfl⟩

/-- The last register, the first and last reserved offsets, a misaligned offset and another width. -/
theorem witness_O40 :
    let admitted (a : Access) := a.width = .w32 ∧ a.off.toNat % 4 = 0 ∧ ¬(0x44 ≤ a.off.toNat ∧ a.off.toNat ≤ 0xFC)
    admitted (.read 0x40 .w32) ∧ ¬admitted (.read 0x44 .w32) ∧ ¬admitted (.write 0xFC (.word 0)) ∧
      ¬admitted (.read 0x3F .w32) ∧ ¬admitted (.read 0x40 .w64) ∧ ¬admitted (.read 0xFF .w32) := by decide

theorem witness_O41 :
    let s := hosted [.rd .caps, .wait] State.reset
    s.turn = .host ∧ s.host.program = [.rd .caps, .wait] := by decide

/-- The three clauses of O42 that have hypotheses: a `wr`, a pair of registers, and the last read-only register. -/
theorem witness_O42 :
    (let s := hosted [.wr .operand 7, .wait] State.reset;
      s.turn = .host ∧ s.host.program = [.wr .operand 7, .wait]) ∧
      (Reg.cfgN ≠ .cmd ∧ Reg.cfgN ≠ .status ∧ Reg.caps ≠ Reg.cfgN) ∧
      Reg.caps ∈ [Reg.result, .resultIdx, .walks, .n, .k, .rounds, .seedLo, .seedHi, .iterIdx, .caps] := by decide

theorem witness_O45 :
    let s := { busyWith 0x2 (conf 8 42 4 0) with host := { program := [], schedule := [.reset], responses := [] } }
    s.turn = .reset ∧ s.active.valid = true ∧ ∃ t, step s = .next t ∧ t.active.valid = false :=
  ⟨rfl, rfl, _, rfl, rfl⟩

/-- A step that draws, and one that does not because the domain size is 0. -/
theorem witness_O46 :
    let s := busyWith 0x11 { State.reset with pend := { State.reset.pend with n := 1, rounds := 1 } }
    s.completing = some (.config .entropy) ∧ (∃ t, step s = .next t ∧ t.draws = 1) ∧
      ∃ t, step (busyWith 0x11 State.reset) = .next t ∧ t.draws = 0 :=
  ⟨by decide, ⟨_, rfl, rfl⟩, _, rfl, rfl⟩

/-- A state with all three parts of the invariant in force but `FATAL`, and a fatal one. -/
theorem witness_O48_O49 :
    (let s := busyWith 0x4 (iterating 7 (conf 8 42 4 0));
      s.Inv ∧ s.status.fatal = false ∧ ∃ t, step s = .next t) ∧
      (conf 8 42 4 0).markFatal.Inv ∧ (conf 8 42 4 0).markFatal.status.fatal = true :=
  ⟨⟨by decide, by decide, _, rfl⟩, by decide, by decide⟩

theorem witness_O50 :
    let s := busyWith 0x1 { State.reset with pend := { State.reset.pend with n := 1, rounds := 1 } }
    ∃ t, step s = .next t ∧ t.active ≠ s.active ∧ s.turn ≠ .reset :=
  ⟨_, rfl, by decide, by decide⟩

/-- Two `GET`s with a `MIX` between them. -/
theorem witness_O51 :
    let s := busyWith 0x00030006 (conf 5 7 1 1)
    Run Instr.keepsConfig 0 s (after s) ∧ s.pend.op = (after s).pend.op ∧ exec .get s = .next (got (exec .get s)) ∧
      exec .get (after s) = .next (got (exec .get (after s))) ∧ (got (exec .get s)).status.err = .none := by
  intro s
  exact ⟨run_on (.start s) (allows_of (by decide) (by decide)) (next_got (by decide)) (by decide), by decide,
    next_got (by decide), next_got (by decide), by decide⟩

/-- Two `CONFIG`s of one configuration, the second in a state that was configured otherwise. -/
theorem witness_O52 :
    let p : Pend := { valid := true, cmd := 1, n := 8, rounds := 4, seed := 42, op := 0 }
    ∃ t t', exec (.config .staging) { State.reset with pend := p } = .next t ∧
      exec (.config .staging) { conf 5 7 1 1 with pend := p } = .next t' ∧ t.status.err = .none ∧ t'.status.err = .none ∧
      t.active.n = t'.active.n ∧ t.active.seed = t'.active.seed ∧ t.active.rounds = t'.active.rounds :=
  ⟨_, _, rfl, rfl, rfl, rfl, rfl, rfl, rfl⟩

/-- The first `ITER_NEXT` of an iteration of one element (`j = 0 < N`), and the second (`j = 1 = N`). -/
theorem witness_O53 :
    let s := hosted [.issue .iterNext, .issue .iterNext] (conf 1 42 4 0)
    let s0 := s.setIter 0 true
    let t := after s0
    let t' := after (after t)
    s.Configured ∧ exec .iterStart s = .next s0 ∧
      (Run Instr.keepsIteration 0 s0 t ∧ t.completing = some .iterNext ∧ step t = .next (after t)) ∧
      Run Instr.keepsIteration 1 s0 t' ∧ t'.completing = some .iterNext ∧ step t' = .next (after t') := by
  intro s s0 t t'
  have r1 : Run Instr.keepsIteration 0 s0 t :=
    run_on (.start s0) (allows_of (by decide) (by decide)) (next_got (by decide)) (by decide)
  have r2 : Run Instr.keepsIteration 1 s0 (after t) := run_on r1 (allows_of (by decide) (by decide)) (next_got (by decide)) (by decide)
  have r3 : Run Instr.keepsIteration 1 s0 t' := run_on r2 (allows_of (by decide) (by decide)) (next_got (by decide)) (by decide)
  exact ⟨by decide, rfl, ⟨r1, by decide, next_got (by decide)⟩, r3, by decide, next_got (by decide)⟩

/-- Reads at the edge of the window, and a program that waits. -/
theorem witness_O54 : (hosted [.rd .caps, .access (.read 0x40 .w32), .wait] State.reset).HostConforms := by decide

/-- No turn of the host and two of them before the engine's. -/
theorem witness_O55 :
    let s (m : Nat) := { busyWith 0x2 (conf 8 42 4 0) with
      host := { program := [.rd .status], schedule := List.replicate m Turn.host ++ [Turn.engine], responses := [] } }
    ((s 0).HostConforms ∧ (s 0).busy = true ∧ (s 0).host.schedule = List.replicate 0 .host ++ .engine :: []) ∧
      (s 2).HostConforms ∧ (s 2).busy = true ∧ (s 2).host.schedule = List.replicate 2 .host ++ .engine :: [] := by
  decide

theorem witness_O56 :
    let s := hosted (construct 8 42 0x00010004 ++ [.rd .n]) State.reset
    s.busy = false ∧ s.status.fatal = false ∧ s.host.schedule = [] ∧
      s.host.program = construct 8 42 0x00010004 ++ [.rd .n] ∧ (8 : Word) ≠ 0 ∧
      (0x00010004 : Word).setWidth 16 ≠ 0#16 := by decide

/-- The greatest round index and the first that is refused. -/
theorem witness_O57 :
    readNumber ['6', '5', '5', '3', '5'] = some 65535 ∧ readNumber ['0', 'x', '1', '0', '0', '0', '0'] = some 65536 := by
  decide

/-- Each clause of O58: `issue`, `wait` on a busy and on an idle block, an access admitted and one refused, and no
program. -/
theorem witness_O58 :
    (let s := hosted [.issue .get] State.reset;
      s.turn = .host ∧ s.host.program = [.issue .get]) ∧
      (let s := (hosted [.wait] (busyWith 0x2 (conf 8 42 4 0))).setSchedule [.host];
        s.turn = .host ∧ s.host.program = [.wait] ∧ (readReg .status s).getLsbD 0 = true) ∧
      (let s := hosted [.wait] State.reset;
        s.turn = .host ∧ s.host.program = [.wait] ∧ (readReg .status s).getLsbD 0 = false) ∧
      (let s := hosted [.access (.read 0x40 .w32)] State.reset;
        s.turn = .host ∧ s.host.program = [.access (.read 0x40 .w32)] ∧
          (state? (busAccess (.read 0x40 .w32) s)).isSome = true) ∧
      (let s := hosted [.access (.read 0x44 .w32)] State.reset;
        s.turn = .host ∧ s.host.program = [.access (.read 0x44 .w32)] ∧
          fault? (busAccess (.read 0x44 .w32) s) = some (.busError 0x44 .w32)) ∧
      State.reset.turn = .host ∧ State.reset.host.program = [] := by decide

/-- A mixer that always answers 0, with `ITER_NEXT` in flight at the last index. -/
theorem witness_O59 :
    let p : Params := { mix := fun _ _ _ => 0, defaultRounds := 1 }
    let s := busyWith 0x4 (iterating 4 (conf 5 42 4 0))
    s.Inv ∧ s.status.fatal = false ∧ stepWith p s = .next (got (stepWith p s)) :=
  ⟨by decide, by decide, next_got (by decide)⟩

/-- 2.3, `K = 1`, and R148 with a mixer that always answers 1: each even round flips the bit, so two of them restore it. -/
theorem test_cipher_constant_mixer :
    [0, 1].map (cipher (fun _ _ _ => 1) 1 1 0) = [1, 0] ∧ [0, 1].map (cipher (fun _ _ _ => 1) 1 3 0) = [0, 1] ∧
      [0, 1].map (cipher mixRef 1 4 42) = [1, 0] := by decide

end Sys2Proof.Tests
end

section
/-! PROOFS. Which accesses of the window are answered and which are the fault `BUS_ERROR` (20_memory.md R63, R67, R69). -/

namespace Sys2Proof.Machine

/-- The admitted accesses as the spec words them: 32 bits wide and aligned (R63), and not at a reserved offset (R67).
An offset has 8 bits, so the reserved range holds every aligned offset past `CAPS` at 0x40. -/
theorem Access.wellFormed_iff (a : Access) :
    a.wellFormed = true ↔
      a.width = .w32 ∧ a.off.toNat % 4 = 0 ∧ ¬(0x44 ≤ a.off.toNat ∧ a.off.toNat ≤ 0xFC) := by
  have hoff : a.off.toNat < 256 := a.off.isLt
  have window : a.off.toNat % 4 = 0 →
      (a.off.toNat ≤ 0x40 ↔ ¬(0x44 ≤ a.off.toNat ∧ a.off.toNat ≤ 0xFC)) := by omega
  simp only [Access.wellFormed, Bool.and_eq_true, decide_eq_true_eq, beq_iff_eq, and_assoc]
  exact and_congr_right fun _ => and_congr_right window

/-- A well-formed access is answered, whatever the state of the block. -/
theorem busAccess_of_wellFormed {a : Access} (h : a.wellFormed = true) (s : State) : ∃ t, busAccess a s = .next t := by
  rcases busAccess_cases a s with ⟨ht, -⟩ | ⟨_, -, hread⟩ | ⟨_, _, -, hwrite⟩
  · rw [← Access.target_isSome, ht] at h
    cases h
  · exact ⟨_, hread⟩
  · exact ⟨_, hwrite⟩

/-- An access that is not well formed is refused, whatever the state of the block. -/
theorem busAccess_of_not_wellFormed {a : Access} (h : ¬a.wellFormed = true) (s : State) :
    busAccess a s = .fault (.busError a.off a.width) := by
  rcases busAccess_cases a s with ⟨-, hfault⟩ | ⟨reg, rfl, -⟩ | ⟨reg, v, rfl, -⟩
  · exact hfault
  · exact absurd (HostOp.toAccess_wellFormed (.rd reg) rfl) h
  · exact absurd (Reg.write_wellFormed reg v) h

/-- Settles O40: the spec's wording of an admitted access is `Access.wellFormed`, and `busAccess` answers exactly those. -/
theorem busErrorExactlyOutsideTheWindow : Obligations.BusErrorExactlyOutsideTheWindow := fun a s =>
  ⟨fun h => busAccess_of_wellFormed (a.wellFormed_iff.mpr h) s,
    fun h => busAccess_of_not_wellFormed (mt a.wellFormed_iff.mp h) s⟩

end Sys2Proof.Machine
end

section
/-! PROOFS. The legal words are exactly the encoded commands (30_encoding.md R96, R97). -/

namespace Sys2Proof

@[simp] theorem decode_wordOfFields (ridx : BitVec 16) (rsv : BitVec 11) (s : BitVec 1) (opc : BitVec 4) :
    decode (wordOfFields ridx rsv s opc) = decodeFields opc s rsv ridx := by
  simp only [decode, opcField_wordOfFields, sField_wordOfFields, rsvField_wordOfFields, ridxField_wordOfFields]

@[simp] theorem seedSourceBit_seedSourceOf : ∀ s : BitVec 1, seedSourceBit (seedSourceOf s) = s := by decide

/-- A command that uses neither S nor RIDX is decoded only where both are 0 (R90). -/
theorem fields_zero_of_decodePlain {i j : Instr} {s : BitVec 1} {ridx : BitVec 16}
    (h : decodePlain i s ridx = .legal j) : s = 0 ∧ ridx = 0 ∧ i = j := by
  unfold decodePlain at h
  split at h
  · cases h
  · next hs =>
    split at h
    · cases h
    · next hridx => exact ⟨not_not.mp hs, not_not.mp hridx, Decoded.legal.inj h⟩

@[simp] theorem decode_encode (i : Instr) : decode (encode i) = .legal i := by
  cases i with
  | nop | get | iterStart | iterNext | cipher => rfl
  | config src => cases src <;> rfl
  | mix r => exact decode_wordOfFields r 0 0 0x6

/-- The decoder admits only encoded commands, row by row of the map (R96). -/
theorem wordOfFields_eq_encode_of_legal {opc : BitVec 4} {s : BitVec 1} {rsv : BitVec 11} {ridx : BitVec 16} {i : Instr}
    (h : decodeFields opc s rsv ridx = .legal i) : wordOfFields ridx rsv s opc = encode i := by
  have opcode {n : ℕ} (hn : opc.toNat = n) : opc = BitVec.ofNat 4 n := by
    rw [← hn, BitVec.ofNat_toNat, BitVec.setWidth_eq]
  unfold decodeFields at h
  split at h
  · cases h
  · next hrsv =>
    obtain rfl := not_not.mp hrsv
    split at h
    case h_2 hn =>
      obtain rfl := opcode hn
      split at h
      · cases h
      · next hridx =>
        obtain rfl := not_not.mp hridx
        cases h
        rw [encode, seedSourceBit_seedSourceOf]
        rfl
    case h_7 hn =>
      obtain rfl := opcode hn
      split at h
      · cases h
      · next hs =>
        obtain rfl := not_not.mp hs
        cases h
        rfl
    case h_8 => cases h
    all_goals
      rename_i hn
      obtain rfl := opcode hn
      obtain ⟨rfl, rfl, rfl⟩ := fields_zero_of_decodePlain h
      rfl

theorem eq_encode_of_decode {w : Word} {i : Instr} (h : decode w = .legal i) : w = encode i :=
  (wordOfFields_fields w).symm.trans (wordOfFields_eq_encode_of_legal h)

/-- A word that encodes no command is illegal (R97). -/
theorem decode_illegal_of_forall_ne_encode {w : Word} (h : ∀ i, w ≠ encode i) : ∃ why, decode w = .illegal why := by
  cases hd : decode w with
  | legal i => exact absurd (eq_encode_of_decode hd) (h i)
  | illegal why => exact ⟨why, rfl⟩

/-- The word of `MIX` as R96 lists it: the round index in the high half, and the opcode 6 alone in the low half. -/
theorem encode_mix (r : RoundIdx) : encode (.mix r) = (r.setWidth 32 <<< 16) ||| 0x00000006 := by
  have low : (6#16).setWidth' (by decide) = (0x00000006 : Word) := rfl
  calc encode (.mix r)
    _ = r ++ 0#11 ++ 0#1 ++ 6#4 := rfl
    _ = r ++ (0#11 ++ (0#1 ++ 6#4)) := by rw [BitVec.append_assoc, BitVec.append_assoc, BitVec.cast_eq, BitVec.cast_eq]
    _ = r ++ 6#16 := rfl
    _ = (r.setWidth 32 <<< 16) ||| 0x00000006 := by rw [BitVec.append_def, BitVec.shiftLeftZeroExtend_eq, low]

/-- Settles O2: the listed words are the encoded commands, which decode to themselves, and no other word is legal. -/
theorem exactLegalWords : Obligations.ExactLegalWords := by
  refine ⟨⟨decode_encode .nop, decode_encode (.config .staging), decode_encode (.config .entropy), decode_encode .get,
    decode_encode .iterStart, decode_encode .iterNext, decode_encode .cipher,
    fun r => encode_mix r ▸ decode_encode (.mix r)⟩, ?_⟩
  intro w nop staging entropy get iterStart iterNext cipher mix
  refine decode_illegal_of_forall_ne_encode fun i => ?_
  cases i with
  | nop => exact nop
  | config src =>
    cases src with
    | staging => exact staging
    | entropy => exact entropy
  | get => exact get
  | iterStart => exact iterStart
  | iterNext => exact iterNext
  | cipher => exact cipher
  | mix r => exact encode_mix r ▸ mix r

end Sys2Proof
end

section
/-! PROOFS. `fmix32` is a bijection (41_round_mixer.md R123): it is a composition of XORs with a shifted copy and of
products with odd factors. -/

namespace Sys2Proof.Machine

/-- A word that its own right shift leaves unchanged is 0. -/
theorem eq_zero_of_ushiftRight_eq_self {n k : Nat} {x : BitVec n} (hk : 0 < k) (h : x >>> k = x) : x = 0 := by
  have hdiv : x.toNat / 2 ^ k = x.toNat := by rw [← Nat.shiftRight_eq_div_pow, ← BitVec.toNat_ushiftRight, h]
  refine BitVec.eq_of_toNat_eq (Nat.eq_zero_of_not_pos fun hpos => ?_)
  exact absurd hdiv (Nat.div_lt_self hpos (Nat.one_lt_two_pow hk.ne')).ne

/-- XOR with a right-shifted copy is one-to-one: the difference of two words with one image is its own right shift. -/
theorem xorShift_bijective {n k : Nat} (hk : 0 < k) : Function.Bijective fun x : BitVec n => x ^^^ (x >>> k) := by
  refine Finite.injective_iff_bijective.mp fun x y (h : x ^^^ x >>> k = y ^^^ y >>> k) => ?_
  have hself : (x ^^^ y) >>> k = x ^^^ y := by
    rw [BitVec.ushiftRight_xor_distrib]
    calc x >>> k ^^^ y >>> k
      _ = x ^^^ (x ^^^ x >>> k) ^^^ y >>> k := by rw [← BitVec.xor_assoc, BitVec.xor_self, BitVec.zero_xor]
      _ = x ^^^ (y ^^^ y >>> k) ^^^ y >>> k := by rw [h]
      _ = x ^^^ y := by rw [BitVec.xor_assoc, BitVec.xor_assoc, BitVec.xor_self, BitVec.xor_zero]
  exact BitVec.xor_eq_zero_iff.mp (eq_zero_of_ushiftRight_eq_self hk hself)

/-- A product with a factor that has an inverse modulo `2^n` is a bijection. -/
theorem mulLeft_bijective_of_inverse {n : Nat} {a b : BitVec n} (h : a * b = 1) : Function.Bijective (a * ·) :=
  IsUnit.isUnit_iff_mulLeft_bijective.mp (.of_mul_eq_one b h)

theorem fmix32_bijective : Function.Bijective fmix32 :=
  have mul1 : Function.Bijective (0x85EBCA6B#32 * ·) := mulLeft_bijective_of_inverse (b := 0xA5CB9243#32) (by decide)
  have mul2 : Function.Bijective (0xC2B2AE35#32 * ·) := mulLeft_bijective_of_inverse (b := 0x7ED1B41D#32) (by decide)
  (xorShift_bijective (k := 16) (by decide)).comp <| mul2.comp <|
    (xorShift_bijective (k := 13) (by decide)).comp <| mul1.comp <| xorShift_bijective (k := 16) (by decide)

/-- A product of words is the product of their numbers reduced modulo `2^32`. -/
theorem mul_eq_ofNat_toNat_mul (c : Nat) (x : Word) : BitVec.ofNat 32 c * x = BitVec.ofNat 32 (x.toNat * c) := by
  rw [BitVec.ofNat_mul, BitVec.ofNat_toNat, BitVec.setWidth_eq, BitVec.mul_comm]

/-- Settles O29: the model's products are the rule's, and each of the five lines is a bijection. -/
theorem fmixIsBijective : Obligations.FmixIsBijective := by
  refine ⟨fun x => ?_, fmix32_bijective, by decide, by decide, by decide⟩
  simp only [← mul_eq_ofNat_toNat_mul]
  rfl

end Sys2Proof.Machine
end

section
/-! PROOFS. The mixer and the command `MIX` (41_round_mixer.md R122, R125, R126). -/

namespace Sys2Proof.Machine

/-- The first sum of `MIX_REF` as the rule writes it (R122): `r + 1` is exact before the product is reduced. -/
theorem mixRef_append (v : Word) (r : RoundIdx) (lo hi : Word) :
    mixRef v r (hi ++ lo) =
      fmix32 (fmix32 (BitVec.ofNat 32 ((v ^^^ lo).toNat + (r.toNat + 1) * 0x9E3779B9)) ^^^ hi) := by
  have hlo : (hi ++ lo).extractLsb' 0 32 = lo := BitVec.extractLsb'_append_eq_right
  have hhi : (hi ++ lo).extractLsb' 32 32 = hi := BitVec.extractLsb'_append_eq_left
  have hsum : (v ^^^ lo) + 0x9E3779B9#32 * (r.setWidth 32 + 1) =
      BitVec.ofNat 32 ((v ^^^ lo).toNat + (r.toNat + 1) * 0x9E3779B9) := by
    rw [BitVec.ofNat_add, BitVec.ofNat_mul, BitVec.ofNat_add, BitVec.ofNat_toNat, BitVec.setWidth_eq, BitVec.ofNat_toNat,
      BitVec.mul_comm]
    rfl
  rw [mixRef, hlo, hhi, hsum]

/-- `MIX` on a configured block (R125): the round function's word on the operand, the round index and the active seed. -/
theorem exec_mix_valid (r : RoundIdx) {s : State} (hv : s.active.valid = true) :
    exec (.mix r) s = .next ((s.writeResults (block.mix s.pend.op r s.active.seed) s.pend.op 0).finish .none) := by
  rw [exec_eq_execWith, execWith, execMixWith, if_neg (by simp [hv]), succeed_eq, State.mixValue]

/-- Settles O27: `MIX` writes the word of `MIX_REF` on the active seed, which is the rule's formula. -/
theorem mixCompletes : Obligations.MixCompletes := fun r s hv => by
  have hmix := mixRef_append s.pend.op r s.active.seedLo s.active.seedHi
  rw [exec_mix_valid r hv, ← hmix]
  rfl

/-- Settles O39: the command and the round apply one round function to the same half, round index and seed (R126). -/
theorem mixIsTheRoundFunction : Obligations.MixIsTheRoundFunction := by
  intro r h s t _ hv hop ht
  rw [exec_mix_valid _ hv] at ht
  obtain rfl := Host.Outcome.next.inj ht
  simp only [feistelRound, State.finish_results, State.writeResults_results, hop, mask]

end Sys2Proof.Machine
end

section
/-! PROOFS. The Feistel network on `k` bits: the halves after `r` rounds (42_domain_cipher.md R143), and the cipher and
its inverse on `[0, 2^k)` (R150, R151). -/

namespace Sys2Proof.Machine

/-- The widths `(wL, wR)` after `r` rounds on `k` bits (R143). -/
def widthsAfter (k r : Nat) : Nat × Nat :=
  if r % 2 = 0 then (widthHi k, widthLo k) else (widthLo k, widthHi k)

/-- What `r` rounds on `k` bits leave: the widths of that parity, and halves that fit them (R143). -/
structure Halves.After (k r : Nat) (h : Halves) : Prop where
  widths : (h.wl, h.wr) = widthsAfter k r
  fits : h.Fits

/-- The word split as `r` rounds on `k` bits leave the widths: the first line of the inverse (R151). -/
def splitAfter (k r : Nat) (y : Word) : Halves := splitAt (widthsAfter k r).1 (widthsAfter k r).2 y

theorem split_eq_splitAfter_zero (k : Nat) (x : Word) : split k x = splitAfter k 0 x := rfl

theorem cipherInv_eq (m : MixFn) (k rounds : Nat) (seed : Seed) (y : Word) :
    cipherInv m k rounds seed y = recombine (unrounds m seed rounds (splitAfter k rounds y)) := by
  by_cases hp : rounds % 2 = 0 <;> simp [cipherInv, splitAfter, widthsAfter, hp]

@[simp] theorem recombine_splitAfter (k r : Nat) (y : Word) : recombine (splitAfter k r y) = y :=
  recombine_splitAt _ _ y

theorem widthsAfter_sum (k r : Nat) : (widthsAfter k r).1 + (widthsAfter k r).2 = k := by
  have hsum := widthHi_add_widthLo k
  by_cases hp : r % 2 = 0
  · simpa [widthsAfter, hp]
  · simpa [widthsAfter, hp, Nat.add_comm]

theorem Halves.After.width_sum {k r : Nat} {h : Halves} (ha : h.After k r) : h.wl + h.wr = k := by
  have hsum := widthsAfter_sum k r
  rwa [← ha.widths] at hsum

theorem Halves.After.recombine_lt {k r : Nat} {h : Halves} (ha : h.After k r) (hk : k ≤ 32) :
    (recombine h).toNat < 2 ^ k := by
  have hlt := Machine.recombine_lt h ha.fits (ha.width_sum.le.trans hk)
  rwa [ha.width_sum] at hlt

theorem splitAfter_recombine {k r : Nat} {h : Halves} (ha : h.After k r) (hk : k ≤ 32) :
    splitAfter k r (recombine h) = h := by
  rw [splitAfter, ← ha.widths]
  exact splitAt_recombine h ha.fits (ha.width_sum.le.trans hk)

theorem splitAfter_after {k : Nat} (r : Nat) {y : Word} (hy : y.toNat < 2 ^ k) : (splitAfter k r y).After k r :=
  ⟨rfl, splitAt_fits _ _ y (by rwa [widthsAfter_sum])⟩

theorem roundsFrom_after (m : MixFn) (seed : Seed) {k : Nat} (r : Nat) {h : Halves} (ha : h.After k 0) :
    (roundsFrom m seed r 0 h).After k r := by
  refine ⟨?_, roundsFrom_fits m seed r 0 h ha.fits⟩
  obtain ⟨hl, hr⟩ := Prod.mk.inj ha.widths
  rw [roundsFrom_widths, hl, hr]
  rfl

/-- The widths going back are read off the rounds going forth, which `roundsFrom_unrounds` gives. -/
theorem unrounds_after (m : MixFn) (seed : Seed) {k r : Nat} {h : Halves} (ha : h.After k r) :
    (unrounds m seed r h).After k 0 := by
  refine ⟨?_, unrounds_fits m seed r h ha.fits⟩
  have hforth := roundsFrom_widths m seed r 0 (unrounds m seed r h)
  rw [roundsFrom_unrounds, ha.widths] at hforth
  by_cases hp : r % 2 = 0
  · simpa [widthsAfter, hp] using hforth.symm
  · simpa [widthsAfter, hp, and_comm] using hforth.symm

theorem cipher_lt (m : MixFn) {k : Nat} (rounds : Nat) (seed : Seed) {x : Word} (hk : k ≤ 32) (hx : x.toNat < 2 ^ k) :
    (cipher m k rounds seed x).toNat < 2 ^ k :=
  (roundsFrom_after m seed rounds (splitAfter_after 0 hx)).recombine_lt hk

theorem cipherInv_lt (m : MixFn) {k : Nat} (rounds : Nat) (seed : Seed) {y : Word} (hk : k ≤ 32) (hy : y.toNat < 2 ^ k) :
    (cipherInv m k rounds seed y).toNat < 2 ^ k := by
  rw [cipherInv_eq]
  exact (unrounds_after m seed (splitAfter_after rounds hy)).recombine_lt hk

theorem cipherInv_cipher (m : MixFn) {k : Nat} (rounds : Nat) (seed : Seed) {x : Word} (hk : k ≤ 32)
    (hx : x.toNat < 2 ^ k) : cipherInv m k rounds seed (cipher m k rounds seed x) = x := by
  have hafter := roundsFrom_after m seed rounds (splitAfter_after 0 hx)
  rw [cipherInv_eq, cipher, split_eq_splitAfter_zero, splitAfter_recombine hafter hk, unrounds_roundsFrom,
    recombine_splitAfter]

theorem cipher_cipherInv (m : MixFn) {k : Nat} (rounds : Nat) (seed : Seed) {y : Word} (hk : k ≤ 32)
    (hy : y.toNat < 2 ^ k) : cipher m k rounds seed (cipherInv m k rounds seed y) = y := by
  have hbefore := unrounds_after m seed (splitAfter_after rounds hy)
  rw [cipherInv_eq, cipher, split_eq_splitAfter_zero, splitAfter_recombine hbefore hk, roundsFrom_unrounds,
    recombine_splitAfter]

/-- Settles O31: the rounds keep `Halves.After`, which the split establishes. -/
theorem halvesKeepTheirWidths : Obligations.HalvesKeepTheirWidths := by
  intro m seed k r x _ hx
  obtain ⟨hwidths, hl, hr⟩ := roundsFrom_after m seed r (splitAfter_after 0 hx)
  exact ⟨hwidths, widthHi_add_widthLo k, hl, hr⟩

/-- Settles O32: the inverse of R151 gives the preimage, and no other value is one. -/
theorem cipherIsBijective : Obligations.CipherIsBijective := by
  intro m k rounds seed hk
  refine ⟨fun x hx => cipher_lt m rounds seed hk hx, fun y hy => ?_⟩
  refine ⟨cipherInv m k rounds seed y, ⟨cipherInv_lt m rounds seed hk hy, cipher_cipherInv m rounds seed hk hy⟩, ?_⟩
  rintro x ⟨hx, rfl⟩
  exact (cipherInv_cipher m rounds seed hk hx).symm

/-- Settles O33: the rounds and their undoing cancel, and recombination cancels with the split of the same widths. -/
theorem cipherInverseUndoesTheCipher : Obligations.CipherInverseUndoesTheCipher :=
  fun m _ rounds seed _ hk hx => ⟨cipherInv_cipher m rounds seed hk hx, cipher_cipherInv m rounds seed hk hx⟩

end Sys2Proof.Machine
end

section
/-! PROOFS. The two-element domain (42_domain_cipher.md R152): one half is empty and the other holds the bit, and the
rounds carry the bit from one to the other. -/

namespace Sys2Proof.Machine

/-- A round whose moving half is empty only swaps (R152). -/
theorem feistelRound_of_wl_eq_zero (m : MixFn) (seed : Seed) (r : Nat) {h : Halves} (hw : h.wl = 0) :
    feistelRound m seed r h = { l := h.r, r := h.l, wl := h.wr, wr := 0 } := by
  simp [feistelRound, hw]

/-- `x` XOR the low bits of the round function on 0 over the even rounds below `rounds` (R152). -/
def evenRoundsXor (m : MixFn) (seed : Seed) (rounds : Nat) (x : Word) : Word :=
  ((List.range rounds).filter (fun r => r % 2 = 0)).foldl
    (fun acc r => acc ^^^ (m 0 (BitVec.ofNat 16 r) seed &&& 1)) x

theorem evenRoundsXor_succ_of_even (m : MixFn) (seed : Seed) {rounds : Nat} (hp : rounds % 2 = 0) (x : Word) :
    evenRoundsXor m seed (rounds + 1) x =
      evenRoundsXor m seed rounds x ^^^ (m 0 (BitVec.ofNat 16 rounds) seed &&& 1) := by
  simp [evenRoundsXor, List.range_succ, List.filter_append, hp]

theorem evenRoundsXor_succ_of_odd (m : MixFn) (seed : Seed) {rounds : Nat} (hp : rounds % 2 = 1) (x : Word) :
    evenRoundsXor m seed (rounds + 1) x = evenRoundsXor m seed rounds x := by
  simp [evenRoundsXor, List.range_succ, List.filter_append, hp]

/-- The halves of a domain of one bit after `r` rounds: `L` holds it if `r` is even, and `R` if it is odd. -/
def singleBit (r : Nat) (v : Word) : Halves :=
  if r % 2 = 0 then { l := v, r := 0, wl := 1, wr := 0 } else { l := 0, r := v, wl := 0, wr := 1 }

theorem split_one (x : Word) : split 1 x = singleBit 0 x := by
  simp [split, splitAt, widthHi, widthLo, singleBit]

theorem recombine_singleBit (r : Nat) (v : Word) : recombine (singleBit r v) = v := by
  by_cases hp : r % 2 = 0 <;> simp [recombine, singleBit, hp]

theorem feistelRound_singleBit_of_even (m : MixFn) (seed : Seed) {r : Nat} (hp : r % 2 = 0) (v : Word) :
    feistelRound m seed r (singleBit r v) = singleBit (r + 1) (v ^^^ (m 0 (BitVec.ofNat 16 r) seed &&& 1)) := by
  have hnext : (r + 1) % 2 = 1 := by omega
  simp [feistelRound, singleBit, mask, hp, hnext]

theorem feistelRound_singleBit_of_odd (m : MixFn) (seed : Seed) {r : Nat} (hp : r % 2 = 1) (v : Word) :
    feistelRound m seed r (singleBit r v) = singleBit (r + 1) v := by
  have hnext : (r + 1) % 2 = 0 := by omega
  rw [feistelRound_of_wl_eq_zero m seed r (by simp [singleBit, hp])]
  simp [singleBit, hp, hnext]

theorem roundsFrom_split_one (m : MixFn) (seed : Seed) (rounds : Nat) (x : Word) :
    roundsFrom m seed rounds 0 (split 1 x) = singleBit rounds (evenRoundsXor m seed rounds x) := by
  induction rounds with
  | zero => exact split_one x
  | succ rounds ih =>
    rw [roundsFrom_succ, ih, Nat.zero_add]
    rcases Nat.mod_two_eq_zero_or_one rounds with hp | hp
    · rw [feistelRound_singleBit_of_even m seed hp, evenRoundsXor_succ_of_even m seed hp]
    · rw [feistelRound_singleBit_of_odd m seed hp, evenRoundsXor_succ_of_odd m seed hp]

/-- Settles O35: the rounds on one bit are `roundsFrom_split_one`, and recombination reads the bit. -/
theorem twoElementDomain : Obligations.TwoElementDomain := by
  refine ⟨⟨rfl, rfl⟩, fun m seed r h hw => feistelRound_of_wl_eq_zero m seed r hw, fun m rounds seed x _ => ?_⟩
  rw [cipher, roundsFrom_split_one, recombine_singleBit]
  rfl

end Sys2Proof.Machine
end

section
/-! PROOFS. The bit width (42_domain_cipher.md R140): `kbits(n)` is the least exponent of a power of two that reaches
`n`. -/

namespace Sys2Proof.Machine

/-- `bitlen` is the least width that holds the number (00_scope.md R13). -/
theorem bitlen_le_iff (x j : Nat) : bitlen x ≤ j ↔ x < 2 ^ j := by
  unfold bitlen
  split
  · next hx => simp [hx]
  · next hx => rw [Nat.succ_le_iff, Nat.log2_lt hx]

/-- One formula covers both cases of R140, because `bitlen(0) = 0`, and the six bits of `K` hold its value. -/
theorem kbits_toNat (n : Word) : (kbits n).toNat = bitlen (n.toNat - 1) := by
  have hlen : bitlen (n.toNat - 1) ≤ 32 := (bitlen_le_iff _ _).mpr (by omega)
  have hone : (if n = 1 then 0 else bitlen (n.toNat - 1)) = bitlen (n.toNat - 1) := by
    split
    · next hn => subst hn; rfl
    · rfl
  rw [kbits, hone, BitVec.toNat_ofNat, Nat.mod_eq_of_lt (by omega)]

theorem kbits_le_iff {n : Word} (hn : 0 < n.toNat) (j : Nat) : (kbits n).toNat ≤ j ↔ n.toNat ≤ 2 ^ j := by
  rw [kbits_toNat, bitlen_le_iff]
  omega

theorem kbits_le (n : Word) : (kbits n).toNat ≤ 32 := by
  rw [kbits_toNat, bitlen_le_iff]
  omega

theorem le_two_pow_kbits {n : Word} (hn : 0 < n.toNat) : n.toNat ≤ 2 ^ (kbits n).toNat :=
  (kbits_le_iff hn _).mp le_rfl

/-- The cipher's domain is less than twice as large as the block's: a smaller width would not reach `n` (R173). -/
theorem two_pow_kbits_lt {n : Word} (hn : 0 < n.toNat) : 2 ^ (kbits n).toNat < 2 * n.toNat := by
  cases hk : (kbits n).toNat with
  | zero => omega
  | succ k =>
    have hshort : ¬n.toNat ≤ 2 ^ k := by rw [← kbits_le_iff hn]; omega
    rw [Nat.pow_succ]
    omega

end Sys2Proof.Machine
end

section
/-! PROOFS. The cycle walk (43_cycle_walk_iterator.md R171 to R174): the first return below `n` of a one-to-one map of
`[0, m)` into itself, and the walk under the cipher as a case of it. -/

namespace Sys2Proof.Machine

/-- The words of `[0, m)`. -/
def below (m : Nat) : Set Word := {x | x.toNat < m}

/-- `c` is the least number of applications, at least one, that takes `i` below `n` (R171). -/
structure Lands (f : Word → Word) (n i : Word) (c : Nat) : Prop where
  pos : 1 ≤ c
  inside : (f^[c] i).toNat < n.toNat
  outside : ∀ j, 1 ≤ j → j < c → n.toNat ≤ (f^[j] i).toNat

/-- The loop answers at the first return, where the cap allows it. -/
theorem Lands.walkLoop_eq {f : Word → Word} {n i : Word} {c left : Nat} (h : Lands f n i c) (hc : c ≤ left + 1) :
    walkLoop f n left (f i) 1 = some (f^[c] i, c) := by
  obtain ⟨j, rfl⟩ : ∃ j, c = j + 1 := ⟨c - 1, by have := h.pos; omega⟩
  rw [walkLoop_of_first j (by omega) h.inside fun k hk => h.outside (k + 1) (by omega) (by omega), Nat.add_comm 1 j,
    Function.iterate_succ_apply]

/-- What the loop answers is the first return. -/
theorem lands_of_walkLoop {f : Word → Word} {n i v : Word} {left c : Nat} (h : walkLoop f n left (f i) 1 = some (v, c)) :
    Lands f n i c ∧ v = f^[c] i := by
  obtain ⟨j, -, rfl, rfl, hlt, hout⟩ := walkLoop_some h
  rw [Nat.add_comm 1 j]
  refine ⟨⟨by omega, hlt, fun k hk hkj => ?_⟩, rfl⟩
  obtain ⟨k, rfl⟩ : ∃ l, k = l + 1 := ⟨k - 1, by omega⟩
  exact hout k (by omega)

section
variable {f : Word → Word} {m : Nat} (hmaps : Set.MapsTo f (below m) (below m)) (hinj : Set.InjOn f (below m))
include hmaps hinj

/-- Equal applications in equal number can be taken off. -/
theorem eq_iterate_of_iterate_add_eq {i j : Word} {c e : Nat} (hi : i ∈ below m) (hj : j ∈ below m)
    (h : f^[c] i = f^[c + e] j) : i = f^[e] j :=
  hinj.iterate hmaps c hi (hmaps.iterate e hj) (by rw [h, Function.iterate_add_apply])

/-- The walk ends (R172): the `m - n` values from `n` up cannot hold `m - n + 1` applications, for two equal ones among
them would make an earlier one equal to `i`, which is below `n`. -/
theorem exists_lands {n i : Word} (hi : i.toNat < n.toNat) (hn : n.toNat ≤ m) :
    ∃ c, Lands f n i c ∧ c ≤ m - n.toNat + 1 := by
  have him : i ∈ below m := hi.trans_le hn
  have hreturn : ∃ c, 1 ≤ c ∧ c ≤ m - n.toNat + 1 ∧ (f^[c] i).toNat < n.toNat := by
    by_contra hnone
    push Not at hnone
    have hstay : ∀ c ∈ Finset.Icc 1 (m - n.toNat + 1), (f^[c] i).toNat ∈ Finset.Ico n.toNat m := fun c hc => by
      obtain ⟨h1, h2⟩ := Finset.mem_Icc.mp hc
      exact Finset.mem_Ico.mpr ⟨hnone c h1 h2, hmaps.iterate c him⟩
    obtain ⟨a, ha, b, hb, hne, heq⟩ := Finset.exists_ne_map_eq_of_card_lt_of_maps_to (by simp) hstay
    wlog hab : a < b generalizing a b
    · exact this b hb a ha hne.symm heq.symm (by omega)
    obtain ⟨e, rfl⟩ := Nat.exists_eq_add_of_le hab.le
    have hback : i = f^[e] i := eq_iterate_of_iterate_add_eq hmaps hinj him him (BitVec.eq_of_toNat_eq heq)
    have hout := hnone e (by omega) (by have := Finset.mem_Icc.mp hb; omega)
    rw [← hback] at hout
    omega
  obtain ⟨h1, h2, hin⟩ := Nat.find_spec hreturn
  refine ⟨Nat.find hreturn, ⟨h1, hin, fun j hj hlt => ?_⟩, h2⟩
  by_contra hj'
  exact Nat.find_min hreturn hlt ⟨hj, by omega, by omega⟩

/-- Two indices below `n` that land on one value are one (R174): if one walk were the longer, it would meet the other's
index on its way. -/
theorem Lands.index_unique {n i j : Word} {c d : Nat} (hc : Lands f n i c) (hd : Lands f n j d) (hi : i.toNat < n.toNat)
    (hj : j.toNat < n.toNat) (hn : n.toNat ≤ m) (h : f^[c] i = f^[d] j) : i = j := by
  wlog hcd : c ≤ d generalizing i j c d
  · exact (this hd hc hj hi h.symm (by omega)).symm
  obtain ⟨e, rfl⟩ := Nat.exists_eq_add_of_le hcd
  have hmeet : i = f^[e] j := eq_iterate_of_iterate_add_eq hmaps hinj (hi.trans_le hn) (hj.trans_le hn) h
  rcases Nat.eq_zero_or_pos e with rfl | he
  · exact hmeet
  · have hout := hd.outside e he (by have := hc.pos; omega)
    rw [← hmeet] at hout
    omega

end

theorem cipher_mapsTo (mix : MixFn) {k : Nat} (rounds : Nat) (seed : Seed) (hk : k ≤ 32) :
    Set.MapsTo (cipher mix k rounds seed) (below (2 ^ k)) (below (2 ^ k)) :=
  fun _ hx => cipher_lt mix rounds seed hk hx

theorem cipher_injOn (mix : MixFn) {k : Nat} (rounds : Nat) (seed : Seed) (hk : k ≤ 32) :
    Set.InjOn (cipher mix k rounds seed) (below (2 ^ k)) :=
  Set.LeftInvOn.injOn fun _ hx => cipherInv_cipher mix rounds seed hk hx

/-- Settles O36: the cipher permutes `[0, 2^K)`, so `exists_lands` gives the first return, and `2^K < 2N` bounds the
cap. -/
theorem walkEndsWithinTheCap : Obligations.WalkEndsWithinTheCap := by
  intro mix rounds seed n i hi f
  have hpos : 0 < n.toNat := by omega
  have hreach := le_two_pow_kbits hpos
  have htight := two_pow_kbits_lt hpos
  obtain ⟨c, hc, hcap⟩ := exists_lands (cipher_mapsTo mix rounds seed (kbits_le n))
    (cipher_injOn mix rounds seed (kbits_le n)) hi hreach
  exact ⟨c, hc.walkLoop_eq hcap, hc.pos, hcap, by omega, hreach⟩

/-- On a configured block the walk from an index below `N` answers its first return, whatever the round function. -/
theorem State.Configured.walk_eq {s : State} (hs : s.Configured) (p : Params) {i : Word}
    (hi : i.toNat < s.active.n.toNat) :
    ∃ c, Lands (s.F p) s.active.n i c ∧ s.walk p i = some ((s.F p)^[c] i, c) := by
  obtain ⟨-, hk, -⟩ := hs.2 hs.1
  obtain ⟨c, hwalk, -⟩ := walkEndsWithinTheCap p.mix s.active.rounds.toNat s.active.seed s.active.n i hi
  rw [← hk] at hwalk
  exact ⟨c, (lands_of_walkLoop hwalk).1, hwalk⟩

theorem getValue_eq_some_iff {p : Params} {s : State} {i v : Word} :
    s.getValue p i = some v ↔ ∃ c, s.walk p i = some (v, c) := by
  simp [State.getValue]

/-- `get` is one-to-one on the indices of a configured block (R174). -/
theorem State.Configured.getValue_injective {s : State} (hs : s.Configured) (p : Params) {i j v : Word}
    (hi : i.toNat < s.active.n.toNat) (hj : j.toNat < s.active.n.toNat) (hiv : s.getValue p i = some v)
    (hjv : s.getValue p j = some v) : i = j := by
  obtain ⟨hpos, hk, -⟩ := hs.2 hs.1
  have hreach : s.active.n.toNat ≤ 2 ^ s.active.k.toNat := hk ▸ le_two_pow_kbits hpos
  have hk32 : s.active.k.toNat ≤ 32 := hk ▸ kbits_le _
  obtain ⟨c, hwc⟩ := getValue_eq_some_iff.mp hiv
  obtain ⟨d, hwd⟩ := getValue_eq_some_iff.mp hjv
  obtain ⟨hc, hvc⟩ := lands_of_walkLoop hwc
  obtain ⟨hd, hvd⟩ := lands_of_walkLoop hwd
  exact hc.index_unique (cipher_mapsTo p.mix _ _ hk32) (cipher_injOn p.mix _ _ hk32) hd hi hj hreach (hvc.symm.trans hvd)

/-- Settles O37: `get` maps the finite set `[0, N)` into itself and is one-to-one there, so it also reaches every value. -/
theorem getIsBijective : Obligations.GetIsBijective := by
  intro p s hs
  have hget : ∀ i : below s.active.n.toNat, ∃ v : below s.active.n.toNat, s.getValue p i = some v.1 := fun i => by
    obtain ⟨c, hc, hwalk⟩ := hs.walk_eq p i.2
    exact ⟨⟨_, hc.inside⟩, getValue_eq_some_iff.mpr ⟨c, hwalk⟩⟩
  refine ⟨fun i hi => ?_, fun v hv => ?_⟩
  · obtain ⟨v, hv⟩ := hget ⟨i, hi⟩
    exact ⟨v, v.2, hv⟩
  · choose g hg using hget
    have hinj : Function.Injective g := fun i j hij =>
      Subtype.ext (hs.getValue_injective p i.2 j.2 (hg i) (hij ▸ hg j))
    obtain ⟨i, hi⟩ := Finite.injective_iff_surjective.mp hinj ⟨v, hv⟩
    have hiv : s.getValue p i = some v := by rw [hg, hi]
    exact ⟨i, ⟨i.2, hiv⟩, fun j ⟨hj, hjv⟩ => hs.getValue_injective p hj i.2 hjv hiv⟩

end Sys2Proof.Machine
end

section
/-! PROOFS. The one-element domain (42_domain_cipher.md R149, 43_cycle_walk_iterator.md R175): both halves are empty. -/

namespace Sys2Proof.Machine

theorem roundsFrom_split_zero (mix : MixFn) (seed : Seed) (rounds : Nat) :
    roundsFrom mix seed rounds 0 (split 0 0) = { l := 0, r := 0, wl := 0, wr := 0 } := by
  induction rounds with
  | zero => rfl
  | succ rounds ih => rw [roundsFrom_succ, ih, feistelRound_of_wl_eq_zero mix seed _ rfl]

theorem cipher_zero (mix : MixFn) (rounds : Nat) (seed : Seed) : cipher mix 0 rounds seed 0 = 0 := by
  rw [cipher, roundsFrom_split_zero]
  rfl

/-- Settles O34: the rounds swap two empty halves, so `F(0) = 0` is below `N = 1` at once. -/
theorem singletonDomain : Obligations.SingletonDomain := by
  refine ⟨fun mix rounds seed => ⟨roundsFrom_split_zero mix seed rounds, cipher_zero mix rounds seed⟩, ?_⟩
  intro p s hs hn
  obtain ⟨-, hk, -⟩ := hs.2 hs.1
  have hk0 : s.active.k = 0 := by rw [hk, hn]; rfl
  have hF : s.F p 0 = 0 := by rw [State.F, hk0]; exact cipher_zero _ _ _
  refine ⟨hk0, ?_⟩
  rw [State.walk, hF, walkLoop_lt (by rw [hn]; decide)]

end Sys2Proof.Machine
end

section
/-! PROOFS. `CONFIG` and `GET` (43_cycle_walk_iterator.md R177 to R180, R184 to R186). -/

namespace Sys2Proof.Machine

/-- Settles O20: the check of the domain size comes before that of the round count. -/
theorem configRejectsBadInputs : Obligations.ConfigRejectsBadInputs := by
  refine fun src s => ⟨fun hn => ?_, fun hn hr => ?_⟩
  · rw [exec_eq_execWith, execWith, execConfig, State.configN, if_pos hn]
    rfl
  · rw [exec_eq_execWith, execWith, execConfig, State.configN, State.configRounds, if_neg hn, if_pos hr]
    rfl

/-- A `CONFIG` that succeeds derives `K` from the `N` it installs (R177). -/
theorem active_k_of_exec_config {src : SeedSource} {s t : State} (h : exec (.config src) s = .next t)
    (he : t.status.err = .none) : t.active.k = kbits t.active.n := by
  cases exec_cases h with
  | raised _ e hne => exact absurd he hne
  | fatal _ hwalks => cases hwalks <;> contradiction
  | config => simp

/-- Settles O52: the walk reads `N`, `K`, `ROUNDS` and `SEED` alone, and `K` follows from `N`. -/
theorem configDeterminesGet : Obligations.ConfigDeterminesGet := by
  intro src src' s s' t t' h h' he he' hn hseed hrounds p i
  have hk : t.active.k = t'.active.k := by
    rw [active_k_of_exec_config h he, active_k_of_exec_config h' he', hn]
  have hF : t.F p = t'.F p := funext fun x => by rw [State.F, State.F, hk, hrounds, hseed]
  rw [State.walk, State.walk, hF, hn, hk]

theorem exec_get_outOfRange {s : State} (hv : s.active.valid = true) (hi : s.active.n.toNat ≤ s.pend.op.toNat) :
    exec .get s = .next (s.finish .outOfRange) := by
  rw [exec_eq_execWith, execWith, execGetWith, if_neg (by simp [hv]), State.getIndex, if_pos hi, raise_eq]

theorem exec_get_walked {s : State} (hv : s.active.valid = true) (hi : s.pend.op.toNat < s.active.n.toNat) {v : Word}
    {c : Nat} (hw : s.walk block s.pend.op = some (v, c)) :
    exec .get s = .next ((s.writeResults v s.pend.op (BitVec.ofNat 32 c)).finish .none) := by
  rw [exec_eq_execWith, execWith, execGetWith, if_neg (by simp [hv]), State.getIndex, if_neg (by omega), hw]
  exact succeed_eq _

/-- What a `GET` that succeeds has found and written. -/
theorem exec_get_success {s t : State} (h : exec .get s = .next t) (he : t.status.err = .none) :
    s.active.valid = true ∧ s.pend.op.toNat < s.active.n.toNat ∧
      ∃ v c, s.walk block s.pend.op = some (v, c) ∧
        t.results = { result := v, resultIdx := s.pend.op, walks := BitVec.ofNat 32 c } := by
  cases exec_cases h with
  | raised _ e hne => exact absurd he hne
  | fatal => cases he
  | get v c hv hi hw => exact ⟨hv, hi, v, c, hw, by simp⟩

/-- Settles O22: `GET` compares the operand with `N`, unsigned, and below `N` the walk answers. -/
theorem getRangeValidation : Obligations.GetRangeValidation := by
  intro s hs
  obtain ⟨hpos, -⟩ := hs.2 hs.1
  have hlast : (s.active.n - 1).toNat < s.active.n.toNat := by bv_omega
  by_cases hi : s.pend.op.toNat < s.active.n.toNat
  · obtain ⟨c, -, hwalk⟩ := hs.walk_eq block hi
    have hminus : s.pend.op ≠ 0xFFFFFFFF := fun h => by rw [h] at hi; exact absurd hi (by bv_omega)
    have hn : s.pend.op ≠ s.active.n := fun h => by rw [h] at hi; omega
    exact ⟨_, exec_get_walked hs.1 hi hwalk, fun h => absurd h hminus, fun h => absurd h hn, fun _ => by simp,
      fun _ => by simp⟩
  · have hzero : s.pend.op ≠ 0 := fun h => hi (by rw [h]; exact hpos)
    have hsub : s.pend.op ≠ s.active.n - 1 := fun h => hi (by rw [h]; exact hlast)
    exact ⟨_, exec_get_outOfRange hs.1 (by omega), fun _ => by simp, fun _ => by simp, fun h => absurd h hzero,
      fun h => absurd h hsub⟩

theorem completing_of_engine {s : State} {i : Instr} (turn : s.turn = .engine) (busy : s.busy = true)
    (word : decode s.pend.cmd = .legal i) : s.completing = some i := by
  rw [State.completing, if_pos ⟨turn, busy⟩, word]
  rfl

/-- A step that is no reset and completes no `CONFIG` keeps the active configuration (10_state.md R28 to R32). -/
theorem step_keeps_active {s t : State} (ok : s.Allows Instr.keepsConfig) (h : step s = .next t) : t.active = s.active := by
  obtain ⟨hreset, hallowed⟩ := ok
  cases step_cases h with
  | reset turn => exact absurd turn hreset
  | hostIdle | hostRead | engineIdle | illegal => simp
  | hostWrite _ _ _ reg v =>
    obtain ⟨hactive, -⟩ := writeReg_keeps reg v s.dropTurn
    simpa using hactive
  | completed turn busy i word _ _ hc =>
    have hi : i.keepsConfig = true := hallowed i (completing_of_engine turn busy word)
    obtain ⟨hactive, -⟩ := hc.keeps_active fun src hsrc => by rw [hsrc] at hi; cases hi
    simpa using hactive

theorem Run.keeps_active {j : Nat} {s t : State} (run : Run Instr.keepsConfig j s t) : t.active = s.active := by
  induction run with
  | start => rfl
  | more _ ok now ih => exact (step_keeps_active ok now).trans ih

/-- Settles O51: the run keeps the active configuration, which is all that the walk reads beside the operand. -/
theorem getIsPure : Obligations.GetIsPure := by
  intro j s t s' t' run hop hs ht he
  have hactive := run.keeps_active
  obtain ⟨hv, hi, v, c, hwalk, hresults⟩ := exec_get_success hs he
  rw [walk_congr block hactive.symm, hop] at hwalk
  rw [hop, ← hactive] at hi
  rw [← hactive] at hv
  rw [exec_get_walked hv hi hwalk] at ht
  obtain rfl := Host.Outcome.next.inj ht
  simp [hresults, hop]

end Sys2Proof.Machine
end

section
/-! PROOFS. The outcomes of a completion (60_exceptions.md R214, R217, R218): which codes a command can leave, and that a
code other than `NONE` comes with no other write than those of `raise` and `fatal`. -/

namespace Sys2Proof.Machine

variable {p : Params} {i : Instr} {s t : State}

/-- The code is in the command's row of the table (R218). -/
theorem Completion.err_mem_outcomes (h : Completion p s i t) : t.status.err ∈ i.outcomes := by
  cases h with
  | raised _ _ _ _ listed => exact listed
  | fatal _ walks => obtain rfl | rfl := walks <;> simp [Instr.outcomes]
  | nop | config | get | iterStart | iterNext | cipher | mix => simp [Instr.outcomes]

/-- A command that does not succeed either raised its code, or its walk from an index below `N` met the cap. -/
theorem Completion.cases_of_err_ne_none (h : Completion p s i t) (ne : t.status.err ≠ .none) :
    (t.status.err ≠ .walkCapExceeded ∧ t = s.finish t.status.err) ∨
      (t = s.markFatal.finish .walkCapExceeded ∧
        s.active.valid = true ∧ ∃ idx : Word, idx.toNat < s.active.n.toNat ∧ s.walk p idx = none) := by
  cases h with
  | raised _ _ _ notCap => exact .inl ⟨notCap, rfl⟩
  | fatal _ _ idx valid inRange cap => exact .inr ⟨rfl, valid, idx, inRange, cap⟩
  | nop | config | get | iterStart | iterNext | cipher | mix => exact absurd rfl ne

/-- On a configuration that meets R42 every walk ends, so the cap never fires. -/
theorem Completion.err_ne_walkCapExceeded (h : Completion p s i t) (inv : s.ConfigInv) :
    t.status.err ≠ .walkCapExceeded := by
  intro he
  obtain ⟨notCap, -⟩ | ⟨-, valid, idx, inRange, cap⟩ := h.cases_of_err_ne_none (by simp [he])
  · exact notCap he
  · obtain ⟨c, -, walked⟩ := State.Configured.walk_eq ⟨valid, inv⟩ p inRange
    rw [cap] at walked
    cases walked

/-- If the completion of the latched word answers `t`, the word was illegal, or `t` is a completion of its command. -/
theorem completePending_next (h : completePending exec s = .next t) :
    (∃ why, decode s.pend.cmd = .illegal why ∧ t = s.finish .illegalCommand) ∨
      ∃ i, decode s.pend.cmd = .legal i ∧ Completion block s i t := by
  obtain ⟨t', ht', hcases⟩ := completePending_cases s
  obtain rfl := Host.Outcome.next.inj (ht'.symm.trans h)
  exact hcases.imp_right fun ⟨i, word, _, hc⟩ => ⟨i, word, hc⟩

/-- Settles O15, from the cases of a completion; a configured block's walk answers, so its cap is never met. -/
theorem outcomesPerCommand : Obligations.OutcomesPerCommand := by
  refine ⟨fun i s t h => (exec_cases h).err_mem_outcomes, fun why s t illegal h => ?_,
    fun i s t inv h => (exec_cases h).err_ne_walkCapExceeded inv⟩
  obtain ⟨-, -, rfl⟩ | ⟨i, legal, -⟩ := completePending_next h
  · rfl
  · rw [illegal] at legal
    cases legal

/-- Settles O16: an illegal word is a raise, and a command that does not succeed is a raise or the fatal completion. -/
theorem errorsArePrecise : Obligations.ErrorsArePrecise := by
  intro s t h
  obtain ⟨-, -, rfl⟩ | ⟨i, -, hc⟩ := completePending_next h
  · exact ⟨rfl, fun _ _ => rfl, fun cap => by cases cap⟩
  · obtain ⟨staging, -⟩ := hc.frame
    refine ⟨staging, fun ne notCap => ?_, fun cap => ?_⟩
    · obtain ⟨-, raised⟩ | ⟨rfl, -⟩ := hc.cases_of_err_ne_none ne
      · exact raised
      · exact absurd rfl notCap
    · obtain ⟨notCap, -⟩ | ⟨rfl, -⟩ := hc.cases_of_err_ne_none (by simp [cap])
      · exact absurd cap notCap
      · rfl

end Sys2Proof.Machine
end

section
/-! PROOFS. Reset values and the two hazard rules about the latch (70_reset_and_hazards.md R251, R252, R259): the command
in flight sees no staging register, and an idle block sees nothing of `PEND` but that it is empty. -/

namespace Sys2Proof.Machine

/-! ### Reset -/

/-- Settles O44, register by register: `STATUS` reads 0 because every bit of it is 0 after reset. -/
theorem resetValues : Obligations.ResetValues :=
  ⟨fun reg => by cases reg <;> rfl, rfl, rfl, rfl, rfl, rfl⟩

/-! ### The next state of an outcome, changed -/

/-- The outcome with its next state changed by `f`. -/
def mapNext (f : State → State) : Result → Result
  | .next t => .next (f t)
  | .fault e => .fault e
  | .refused e => .refused e

@[simp] theorem mapNext_next (f : State → State) (t : State) : mapNext f (.next t) = .next (f t) := (rfl)

theorem mapNext_ite (f : State → State) (c : Prop) [Decidable c] (o o' : Result) :
    mapNext f (if c then o else o') = if c then mapNext f o else mapNext f o' := apply_ite ..

/-! ### The command in flight and the staging registers -/

section
variable (g : Staging) (p : Params) (s : State)

theorem raise_setStaging (e : ErrCode) : raise e (s.setStaging g) = mapNext (State.setStaging g) (raise e s) := (rfl)

@[simp] theorem getIndex_setStaging : (s.setStaging g).getIndex = s.getIndex := (rfl)

@[simp] theorem walk_setStaging (idx : Word) : (s.setStaging g).walk p idx = s.walk p idx := walk_congr p rfl idx

/-- No command reads or writes a staging register: new staging values come out as they went in. -/
theorem execWith_setStaging (i : Instr) :
    execWith p i (s.setStaging g) = mapNext (State.setStaging g) (execWith p i s) := by
  cases i with
  | nop => rfl
  | config src =>
    simp only [execWith, execConfig, mapNext_ite, ← raise_setStaging]
    cases src <;> rfl
  | get =>
    simp only [execWith, execGetWith, mapNext_ite, ← raise_setStaging, walk_setStaging, getIndex_setStaging]
    cases s.walk p s.getIndex <;> rfl
  | iterStart =>
    simp only [execWith, execIterStart, mapNext_ite, ← raise_setStaging]
    rfl
  | iterNext =>
    simp only [execWith, execIterNextWith, mapNext_ite, ← raise_setStaging, walk_setStaging, State.setStaging_iter]
    cases s.walk p s.iter.idx <;> rfl
  | cipher =>
    simp only [execWith, execCipherWith, mapNext_ite, ← raise_setStaging]
    rfl
  | mix r =>
    simp only [execWith, execMixWith, mapNext_ite, ← raise_setStaging]
    rfl

theorem completePending_setStaging :
    completePending exec (s.setStaging g) = mapNext (State.setStaging g) (completePending exec s) := by
  rw [exec_fun_eq, completePending, completePending, State.setStaging_pend]
  cases decode s.pend.cmd with
  | legal i => exact execWith_setStaging g block s i
  | illegal why => rfl

end

/-- Settles O11: the completion reads its operands from the latch, and only acceptance fills the latch from staging. -/
theorem stagingWritesMissTheCommandInFlight : Obligations.StagingWritesMissTheCommandInFlight := by
  refine fun g s => ⟨?_, fun w => rfl⟩
  obtain ⟨t, ht, -⟩ := completePending_cases s
  exact ⟨t, ht, by rw [completePending_setStaging, ht, mapNext_next]⟩

/-! ### The empty latch -/

/-- The state with the latch `q`. -/
def State.setPend (q : Pend) (s : State) : State := { s with pend := q }

/-- `u` is `t` but for the latch, which is either that of `t`, or `q` where that of `t` is empty. -/
def SameButEmptyLatch (q : Pend) (t u : State) : Prop :=
  ∃ q', u = t.setPend q' ∧ (q' = t.pend ∨ (t.pend.valid = false ∧ q' = q))

/-- Two outcomes that differ at most in what an empty latch holds; neither refuses. -/
inductive SameOutcome (q : Pend) : Result → Result → Prop where
  | next {t u : State} (same : SameButEmptyLatch q t u) : SameOutcome q (.next t) (.next u)
  | fault (e : Fault) : SameOutcome q (.fault e) (.fault e)

theorem SameButEmptyLatch.refl (q : Pend) (t : State) : SameButEmptyLatch q t t := ⟨t.pend, rfl, .inl rfl⟩

theorem SameButEmptyLatch.setPend {t : State} (idle : t.busy = false) (q : Pend) : SameButEmptyLatch q t (t.setPend q) :=
  ⟨q, rfl, .inr ⟨idle, rfl⟩⟩

theorem SameButEmptyLatch.respond {q : Pend} {t u : State} (h : SameButEmptyLatch q t u) (r : Response) :
    SameButEmptyLatch q (t.respond r) (u.respond r) := by
  obtain ⟨q', rfl, latch⟩ := h
  exact ⟨q', rfl, latch⟩

/-- What is left of the program is no part of the latch. -/
theorem SameOutcome.setProgram {q : Pend} {o o' : Result} (h : SameOutcome q o o') (ops : List HostOp) :
    SameOutcome q (mapNext (State.setProgram ops) o) (mapNext (State.setProgram ops) o') := by
  cases h with
  | next same =>
    obtain ⟨q', rfl, latch⟩ := same
    exact .next ⟨q', rfl, latch⟩
  | fault e => exact .fault e

theorem hostStep_of_program {s : State} {op : HostOp} {rest : List HostOp} (program : s.host.program = op :: rest) :
    hostStep s = mapNext (State.setProgram (op.remaining s.busy rest)) (busAccess op.toAccess s) := by
  simp only [hostStep, program]
  cases busAccess op.toAccess s <;> rfl

section
variable {s : State} {q : Pend} (idle : s.busy = false) (empty : q.valid = false)
include idle empty

theorem busy_setPend : (s.setPend q).busy = s.busy := empty.trans idle.symm

theorem turn_setPend : (s.setPend q).turn = s.turn := by
  rw [State.turn, busy_setPend idle empty]
  rfl

/-- A read sees of the latch only `BUSY`. -/
theorem readReg_setPend (reg : Reg) : readReg reg (s.setPend q) = readReg reg s := by
  cases reg
  case status =>
    rw [readReg, State.statusWord, busy_setPend idle empty]
    rfl
  all_goals rfl

/-- A write leaves the empty latch alone, or accepts a command and writes the latch whole (10_state.md R41). -/
theorem writeReg_setPend (reg : Reg) (v : Word) :
    SameButEmptyLatch q (writeReg reg v s) (writeReg reg v (s.setPend q)) := by
  have kept := SameButEmptyLatch.setPend idle q
  cases reg
  case cmd =>
    rw [writeReg, writeReg]
    cases hf : s.status.fatal with
    | true =>
      rw [offerCommand_fatal hf, offerCommand_fatal (s := s.setPend q) hf]
      exact kept
    | false =>
      rw [offerCommand_idle hf idle, offerCommand_idle (s := s.setPend q) hf empty]
      exact .refl q (s.accept v)
  case status =>
    rw [writeReg, writeReg]
    by_cases clear : v.getLsbD 4 = true
    · rw [if_pos clear, if_pos clear]
      exact ⟨q, rfl, .inr ⟨idle, rfl⟩⟩
    · rw [if_neg clear, if_neg clear]
      exact kept
  case cfgN | cfgRounds | cfgSeedLo | cfgSeedHi | operand =>
    exact ⟨q, rfl, .inr ⟨idle, rfl⟩⟩
  all_goals exact kept

theorem busAccess_setPend (a : Access) : SameOutcome q (busAccess a s) (busAccess a (s.setPend q)) := by
  rcases busAccess_cases a s with ⟨target, -⟩ | ⟨reg, rfl, -⟩ | ⟨reg, v, rfl, -⟩
  · have refused : ¬a.wellFormed = true := by simp [← Access.target_isSome, target]
    rw [busAccess_of_not_wellFormed refused, busAccess_of_not_wellFormed refused]
    exact .fault _
  · rw [busAccess_read, busAccess_read, readReg_setPend idle empty]
    exact .next ((SameButEmptyLatch.setPend idle q).respond _)
  · rw [busAccess_write, busAccess_write]
    exact .next ((writeReg_setPend idle empty reg v).respond _)

theorem hostStep_setPend : SameOutcome q (hostStep s) (hostStep (s.setPend q)) := by
  cases program : s.host.program with
  | nil =>
    rw [hostStep, hostStep, program, show (s.setPend q).host.program = [] from program]
    exact .next (.setPend idle q)
  | cons op rest =>
    rw [hostStep_of_program program, hostStep_of_program (s := s.setPend q) program, busy_setPend idle empty]
    exact (busAccess_setPend idle empty op.toAccess).setProgram _

/-- A step from an idle state: a reset gives the latch its reset value, the engine does nothing, and the host sees of the
latch no more than `BUSY`. -/
theorem step_setPend : SameOutcome q (step s) (step (s.setPend q)) := by
  have turns := turn_setPend idle empty
  cases turn : s.turn with
  | reset =>
    rw [step_reset turn, step_reset (turns.trans turn)]
    exact .next (.refl q _)
  | host =>
    rw [step_host turn, step_host (turns.trans turn)]
    exact hostStep_setPend (s := s.dropTurn) idle empty
  | engine =>
    rw [step_engine turn, step_engine (turns.trans turn), busy_setPend idle empty, idle]
    exact .next (.setPend (t := s.dropTurn) idle q)

end

/-- Settles O13: whatever the fields of an empty latch, the step has the same outcome, and never a refusal. -/
theorem pendIsUnreadWhileIdle : Obligations.PendIsUnreadWhileIdle := by
  intro s q idle empty
  have same : SameOutcome q (step s) (step { s with pend := q }) := step_setPend idle empty
  generalize step s = o, step { s with pend := q } = o' at same ⊢
  cases same with
  | fault e => exact ⟨fun _ h => h, nofun, nofun⟩
  | next same =>
    obtain ⟨q', rfl, latch⟩ := same
    refine ⟨nofun, nofun, fun t' h => ?_⟩
    obtain rfl := Host.Outcome.next.inj h
    exact ⟨q', rfl, latch⟩

end Sys2Proof.Machine
end

section
/-! PROOFS. The opcode table and the decoder (30_encoding.md R90, R96, R97): a word meets a row's match and mask exactly if
it is the word of a command of that row. -/

namespace Sys2Proof

/-- Settles O1: a legal word is the encoded command, and the decoder reads that word back. -/
theorem decodeAndEncodeAgree : Obligations.DecodeAndEncodeAgree :=
  fun _ i => ⟨eq_encode_of_decode, fun h => h ▸ decode_encode i⟩

/-- The mask of `CONFIG`'s row hides the S field alone. -/
theorem wordOfFields_withoutS (ridx : BitVec 16) (rsv : BitVec 11) (s : BitVec 1) (opc : BitVec 4) :
    wordOfFields ridx rsv s opc &&& 0xFFFFFFEF = wordOfFields ridx rsv 0#1 opc := by
  have hm : (0xFFFFFFEF : Word) = wordOfFields (BitVec.allOnes 16) (BitVec.allOnes 11) 0#1 (BitVec.allOnes 4) := by
    decide
  rw [hm]
  unfold wordOfFields
  rw [BitVec.and_append, BitVec.and_append, BitVec.and_append, BitVec.and_allOnes, BitVec.and_allOnes, BitVec.and_allOnes,
    BitVec.and_zero]

/-- Words of the format are equal only field by field. -/
theorem wordOfFields_inj {ridx ridx' : BitVec 16} {rsv rsv' : BitVec 11} {s s' : BitVec 1} {opc opc' : BitVec 4}
    (h : wordOfFields ridx rsv s opc = wordOfFields ridx' rsv' s' opc') :
    ridx = ridx' ∧ rsv = rsv' ∧ s = s' ∧ opc = opc' :=
  ⟨by simpa using congrArg ridxField h, by simpa using congrArg rsvField h, by simpa using congrArg sField h,
    by simpa using congrArg opcField h⟩

/-- The word of a command belongs to the command's row. -/
theorem row_holds_encode (i : Instr) : i.row.holds (encode i) = true := by
  cases i with
  | nop => exact Laws.EncodeInRow.nop
  | config src => exact Laws.EncodeInRow.config src
  | get => exact Laws.EncodeInRow.get
  | iterStart => exact Laws.EncodeInRow.iterStart
  | iterNext => exact Laws.EncodeInRow.iterNext
  | cipher => exact Laws.EncodeInRow.cipher
  | mix r => exact Laws.EncodeInRow.mix r

/-- A word that meets a row is the word of a command of that row: a full mask leaves one word, the mask of `CONFIG` leaves
S open, and that of `MIX` leaves RIDX open. -/
theorem exists_encode_of_row_holds {i : Instr} {w : Word} (h : i.row.holds w = true) :
    ∃ j : Instr, j.row = i.row ∧ w = encode j := by
  have fields := wordOfFields_fields w
  rw [TableRow.holds, beq_iff_eq] at h
  cases i with
  | nop | get | iterStart | iterNext | cipher => exact ⟨_, rfl, BitVec.and_allOnes.symm.trans h⟩
  | config src =>
    rw [← fields, Instr.row, wordOfFields_withoutS] at h
    obtain ⟨hridx, hrsv, -, hopc⟩ := wordOfFields_inj (h.trans (show _ = wordOfFields 0 0 0 1 from rfl))
    refine ⟨.config (seedSourceOf (sField w)), rfl, ?_⟩
    rw [encode, seedSourceBit_seedSourceOf, ← fields, hridx, hrsv, hopc, sField_wordOfFields]
  | mix r =>
    rw [← fields, Instr.row, wordOfFields_low] at h
    obtain ⟨-, hrsv, hs, hopc⟩ := wordOfFields_inj (h.trans (show _ = wordOfFields 0 0 0 6 from rfl))
    refine ⟨.mix (ridxField w), rfl, ?_⟩
    rw [encode, ← fields, hrsv, hs, hopc, ridxField_wordOfFields]

/-- The table's rows are those of the commands. -/
theorem mem_opcodeTable_iff (row : TableRow) : row ∈ opcodeTable ↔ ∃ i : Instr, i.row = row := by
  constructor
  · intro h
    simp only [opcodeTable, List.mem_cons, List.not_mem_nil, or_false] at h
    obtain rfl | rfl | rfl | rfl | rfl | rfl | rfl := h
    exacts [⟨.nop, rfl⟩, ⟨.config .staging, rfl⟩, ⟨.get, rfl⟩, ⟨.iterStart, rfl⟩, ⟨.iterNext, rfl⟩, ⟨.cipher, rfl⟩,
      ⟨.mix 0, rfl⟩]
  · rintro ⟨i, rfl⟩
    cases i <;> simp [Instr.row, opcodeTable]

/-- Settles O3: a row's words are the encoded commands of that row, and a word encodes one command. -/
theorem legalWordsAreTheTableRows : Obligations.LegalWordsAreTheTableRows := by
  refine ⟨fun w => ⟨fun h => ?_, fun ⟨i, h⟩ => ?_⟩, fun w i h => ?_, fun w i j hi hj => ?_⟩
  · obtain ⟨row, hrow, holds⟩ := List.any_eq_true.mp h
    obtain ⟨i, rfl⟩ := (mem_opcodeTable_iff row).mp hrow
    obtain ⟨j, -, rfl⟩ := exists_encode_of_row_holds holds
    exact ⟨j, decode_encode j⟩
  · rw [eq_encode_of_decode h]
    exact List.any_eq_true.mpr ⟨i.row, (mem_opcodeTable_iff _).mpr ⟨i, rfl⟩, row_holds_encode i⟩
  · rw [eq_encode_of_decode h]
    exact row_holds_encode i
  · obtain ⟨i', hirow, rfl⟩ := exists_encode_of_row_holds hi
    obtain ⟨j', hjrow, heq⟩ := exists_encode_of_row_holds hj
    have hij : i' = j' := Decoded.legal.inj (by rw [← decode_encode i', heq, decode_encode])
    rw [← hirow, ← hjrow, hij]

/-- Settles O4: the legal words are encoded commands, and each illegal one fails the check that names its reason. -/
theorem specWordsDecode : Obligations.SpecWordsDecode :=
  ⟨decode_encode .nop, decode_encode (.config .entropy), decode_encode .get, decode_encode (.mix 3),
    decode_encode (.mix 65535), by decide, by decide, by decide, by decide, by decide, by decide⟩

end Sys2Proof
end

section
/-! PROOFS. What a step does to the elements that the engine writes (20_memory.md R65, 60_exceptions.md R210): it resets
them, or keeps them, or is the completion of the latched word. From this the invariant of the block (10_state.md R42, R43),
the absence of fatal steps (43_cycle_walk_iterator.md R172), and the rules of acceptance (60_exceptions.md R211, R212). -/

namespace Sys2Proof.Machine

/-- What the engine writes is in `t` as in `s`, and so is the latch, unless a command was accepted. -/
structure EngineKept (s t : State) : Prop where
  active : t.active = s.active
  results : t.results = s.results
  iter : t.iter = s.iter
  err : t.status.err = s.status.err
  fatal : t.status.fatal = s.status.fatal
  draws : t.draws = s.draws
  latch : t.pend = s.pend ∨ (s.busy = false ∧ s.status.fatal = false)

/-- A write by the host keeps what the engine writes, and fills the latch only by acceptance. -/
theorem EngineKept.writeReg (reg : Reg) (v : Word) (s : State) : EngineKept s (writeReg reg v s) := by
  obtain ⟨active, results, iter, err, fatal, draws, -⟩ := writeReg_keeps reg v s
  exact ⟨active, results, iter, err, fatal, draws,
    (writeReg_pend reg v s).imp_right fun ⟨_, idle, alive, _⟩ => ⟨idle, alive⟩⟩

theorem completing_eq_none {s : State} (h : s.turn ≠ .engine ∨ s.busy = false) : s.completing = none := by
  refine if_neg fun ⟨engine, busy⟩ => ?_
  obtain other | idle := h
  · exact other engine
  · rw [busy] at idle
    cases idle

theorem turn_busy_of_completing {s : State} {i : Instr} (h : s.completing = some i) :
    s.turn = .engine ∧ s.busy = true ∧ decode s.pend.cmd = .legal i := by
  rw [State.completing] at h
  split at h
  · next hturn =>
    refine ⟨hturn.1, hturn.2, ?_⟩
    cases hd : decode s.pend.cmd with
    | legal j =>
      rw [hd] at h
      rw [Option.some.inj h]
    | illegal why =>
      rw [hd] at h
      cases h
  · cases h

/-- A step as the engine's elements see it. -/
inductive Effect (p : Params) (s t : State) : Prop where
  | reset (turn : s.turn = .reset) (none : s.completing = none) (eq : t = s.dropTurn.resetBlock p)
  | kept (turn : s.turn ≠ .reset) (none : s.completing = none) (kept : EngineKept s t)
  | illegal (turn : s.turn = .engine) (busy : s.busy = true) (none : s.completing = none)
      (eq : t = s.dropTurn.finish .illegalCommand)
  | command (i : Instr) (completing : s.completing = some i) (run : execWith p i s.dropTurn = .next t)
      (cases : Completion p s.dropTurn i t)

theorem stepWith_effect {p : Params} {s t : State} (h : stepWith p s = .next t) : Effect p s t := by
  cases stepWith_cases h with
  | reset turn => exact .reset turn (completing_eq_none (by simp [turn])) rfl
  | hostIdle turn | hostRead turn =>
    exact .kept (by simp [turn]) (completing_eq_none (by simp [turn])) ⟨rfl, rfl, rfl, rfl, rfl, rfl, .inl rfl⟩
  | hostWrite turn _ _ reg v =>
    obtain ⟨active, results, iter, err, fatal, draws, latch⟩ := EngineKept.writeReg reg v s.dropTurn
    exact .kept (by simp [turn]) (completing_eq_none (by simp [turn]))
      ⟨active, results, iter, err, fatal, draws, latch⟩
  | engineIdle turn idle =>
    exact .kept (by simp [turn]) (completing_eq_none (.inr idle)) ⟨rfl, rfl, rfl, rfl, rfl, rfl, .inl rfl⟩
  | illegal turn busy why word =>
    refine .illegal turn busy ?_ rfl
    rw [State.completing, if_pos ⟨turn, busy⟩, word]
    rfl
  | completed turn busy i word _ run hc => exact .command i (completing_of_engine turn busy word) run hc

theorem step_effect {s t : State} (h : step s = .next t) : Effect block s t :=
  stepWith_effect (by rwa [step_eq_stepWith] at h)

/-! ### The invariant -/

/-- The invariant reads the active configuration, the iterator, `FATAL` and `BUSY`. -/
theorem State.Inv.of_eq {s t : State} (inv : s.Inv) (active : t.active = s.active) (iter : t.iter = s.iter)
    (fatal : t.FatalInv) : t.Inv := by
  obtain ⟨config, iterator, -⟩ := inv
  exact ⟨by rwa [State.ConfigInv, active], by rwa [State.IterInv, active, iter], fatal⟩

theorem resetWith_inv (p : Params) : (State.resetWith p).Inv := ⟨nofun, nofun, nofun⟩

/-- A completion keeps the invariant: `CONFIG` installs `N`, `ROUNDS` that are not 0 and `K = kbits(N)`, and clears the
iterator; `ITER_START` starts at 0, and `ITER_NEXT` advances only from below `N`. -/
theorem Completion.keeps_inv {p : Params} {i : Instr} {s t : State} (h : Completion p s i t) (inv : s.Inv) : t.Inv := by
  have ⟨hconfig, _, _⟩ := inv
  cases h with
  | nop | raised | fatal | get | cipher | mix => exact inv.of_eq rfl rfl fun _ => rfl
  | config src hn hr =>
    refine ⟨fun _ => ?_, nofun, fun _ => rfl⟩
    have hn' : s.pend.n.toNat ≠ 0 := fun h => hn (BitVec.eq_of_toNat_eq h)
    have hr' : s.pend.rounds.toNat ≠ 0 := fun h => hr (BitVec.eq_of_toNat_eq h)
    exact ⟨Nat.one_le_iff_ne_zero.mpr hn', rfl, Nat.one_le_iff_ne_zero.mpr hr'⟩
  | iterStart valid => exact ⟨hconfig, fun _ => ⟨valid, Nat.zero_le _⟩, fun _ => rfl⟩
  | iterNext v c valid active inRange =>
    refine ⟨hconfig, fun _ => ⟨valid, ?_⟩, fun _ => rfl⟩
    show (s.iter.idx + 1).toNat ≤ s.active.n.toNat
    bv_omega

theorem stepWith_keeps_inv {p : Params} {s t : State} (inv : s.Inv) (h : stepWith p s = .next t) : t.Inv := by
  cases stepWith_effect h with
  | reset _ _ eq =>
    subst eq
    exact resetWith_inv p
  | kept _ _ kept =>
    obtain ⟨-, -, fatalInv⟩ := id inv
    refine inv.of_eq kept.active kept.iter fun hf => ?_
    rw [kept.fatal] at hf
    obtain same | ⟨-, alive⟩ := kept.latch
    · rw [State.busy, same]
      exact fatalInv hf
    · rw [hf] at alive
      cases alive
  | illegal _ _ _ eq =>
    subst eq
    exact inv.of_eq rfl rfl fun _ => rfl
  | command i _ _ hc => exact hc.keeps_inv inv

/-- On a configuration that meets R42 a command leaves `FATAL` as it was. -/
theorem Completion.fatal_eq {p : Params} {i : Instr} {s t : State} (h : Completion p s i t) (inv : s.ConfigInv) :
    t.status.fatal = s.status.fatal := by
  have noCap := h.err_ne_walkCapExceeded inv
  cases h with
  | fatal => exact absurd rfl noCap
  | config src => simp
  | nop | raised | get | iterStart | iterNext | cipher | mix => rfl

theorem stepWith_not_fatal {p : Params} {s t : State} (inv : s.Inv) (alive : s.status.fatal = false)
    (h : stepWith p s = .next t) : t.status.fatal = false := by
  cases stepWith_effect h with
  | reset _ _ eq =>
    subst eq
    rfl
  | kept _ _ kept => exact kept.fatal.trans alive
  | illegal _ _ _ eq =>
    subst eq
    exact alive
  | command i _ _ hc => exact (hc.fatal_eq inv.1).trans alive

/-- Settles O48: the step is the step for this block's parameters. -/
theorem stepKeepsInvariant : Obligations.StepKeepsInvariant :=
  fun s _ inv h => stepWith_keeps_inv inv (step_eq_stepWith s ▸ h)

/-- Settles O49: the one way to `FATAL` is a walk that meets its cap, which a valid configuration rules out. -/
theorem noStepBecomesFatal : Obligations.NoStepBecomesFatal :=
  fun s _ inv alive h => stepWith_not_fatal inv alive (step_eq_stepWith s ▸ h)

/-- Settles O47: after reset nothing is valid, active, busy or fatal. -/
theorem resetMeetsInvariant : Obligations.ResetMeetsInvariant := ⟨resetWith_inv block, rfl⟩

/-- Settles O59: no part of the proof of O48 and O49 depends on the parameters. -/
theorem everyMixKeepsTheGuarantees : Obligations.EveryMixKeepsTheGuarantees :=
  fun p => ⟨resetWith_inv p, rfl, fun _ _ inv h => ⟨stepWith_keeps_inv inv h, fun alive => stepWith_not_fatal inv alive h⟩⟩

/-! ### The configuration, reset and the host's turn -/

/-- Settles O50: of the completions only a successful `CONFIG` writes the active configuration. -/
theorem onlyConfigWritesTheConfiguration : Obligations.OnlyConfigWritesTheConfiguration := by
  intro s t h
  cases step_effect h with
  | reset turn _ eq => exact .inr (.inl ⟨turn, eq ▸ rfl⟩)
  | kept _ _ kept => exact .inl kept.active
  | illegal _ _ _ eq => exact .inl (eq ▸ rfl)
  | command i completing _ hc =>
    cases hc with
    | config src hn hr => exact .inr (.inr ⟨src, completing, hn, hr, rfl, rfl, rfl, rfl⟩)
    | nop | raised | fatal | get | iterStart | iterNext | cipher | mix => exact .inl rfl

/-- Settles O45: the reset turn is `resetBlock`, and by O50 any other step that writes `CFG_VALID` sets it. -/
theorem resetTurn : Obligations.ResetTurn := by
  refine ⟨fun s turn => ⟨_, step_reset turn, rfl, rfl, rfl, rfl, rfl, rfl, rfl, rfl⟩, fun s t h valid invalid => ?_⟩
  obtain same | ⟨turn, -⟩ | ⟨-, -, -, -, -, stillValid, -⟩ := onlyConfigWritesTheConfiguration s t h
  · rw [same, valid] at invalid
    cases invalid
  · exact turn
  · rw [stillValid] at invalid
    cases invalid

/-- Settles O10: on the host's turn nothing is reset or completed, and while `BUSY = 1` nothing is accepted. -/
theorem hostTurnLeavesTheEngineAlone : Obligations.HostTurnLeavesTheEngineAlone := by
  intro s t host h
  cases step_effect h with
  | reset turn => cases host.symm.trans turn
  | kept _ _ kept =>
    refine ⟨kept.active, kept.results, kept.iter, kept.err, kept.fatal, kept.draws, fun busy => ?_⟩
    exact kept.latch.resolve_right fun ⟨idle, _⟩ => by simp [busy] at idle
  | illegal turn => cases host.symm.trans turn
  | command i completing => cases host.symm.trans (turn_busy_of_completing completing).1

/-! ### Commands that are dropped -/

/-- A write of `CMD` offers the word, and the host has its response. -/
theorem busAccess_cmd (w : Word) (s : State) :
    busAccess (.write 0x00 (.word w)) s = .next ((offerCommand w s).respond (.written .cmd)) :=
  busAccess_write .cmd w s

/-- Settles O7: an idle block that is not fatal accepts the word. -/
theorem acceptanceLatchesTheOperands : Obligations.AcceptanceLatchesTheOperands := by
  intro w s idle alive
  rw [busAccess_cmd, offerCommand_idle alive idle]
  rfl

/-- Settles O9: a fatal block drops the word, and when idle it has no command to complete. -/
theorem commandWhileFatalIsDropped : Obligations.CommandWhileFatalIsDropped := by
  refine ⟨fun w s fatal => ?_, fun s t fatal idle turn h => ?_⟩
  · rw [busAccess_cmd, offerCommand_fatal fatal]
    rfl
  · cases step_effect h with
    | reset reset => exact absurd reset turn
    | kept _ _ kept =>
      refine ⟨kept.fatal.trans fatal, ?_, kept.active, kept.results, kept.iter, kept.err⟩
      exact kept.latch.resolve_right fun ⟨_, alive⟩ => by simp [fatal] at alive
    | illegal _ busy => cases idle.symm.trans busy
    | command i completing => cases idle.symm.trans (turn_busy_of_completing completing).2.1

/-- A write clears `OVERRUN` only at `STATUS` with bit 4 set (10_state.md R38). -/
theorem writeReg_overrun (reg : Reg) (v : Word) {s : State} (overrun : s.status.overrun = true) :
    (writeReg reg v s).status.overrun = true ∨ (reg = .status ∧ v.getLsbD 4 = true) := by
  cases reg
  case cmd =>
    rw [writeReg, offerCommand]
    split
    · exact .inl overrun
    · split
      · exact .inl rfl
      · exact .inl overrun
  case status =>
    rw [writeReg]
    split
    · next clear => exact .inr ⟨rfl, clear⟩
    · exact .inl overrun
  all_goals exact .inl overrun

/-- Settles O8: a busy block drops the word, and a completion never writes `OVERRUN`. -/
theorem commandWhileBusyIsDropped : Obligations.CommandWhileBusyIsDropped := by
  refine ⟨fun w s busy alive => ?_, fun s t h overrun => ?_⟩
  · rw [busAccess_cmd, offerCommand_busy alive busy]
    rfl
  · cases step_cases h with
    | reset turn => exact .inr (.inl turn)
    | hostIdle | hostRead | engineIdle | illegal => exact .inl overrun
    | hostWrite turn op rest reg v program access =>
      refine (writeReg_overrun reg v (s := s.dropTurn) overrun).imp id fun ⟨status, clear⟩ => ?_
      exact .inr ⟨turn, op, rest, v, program, by rw [access, status]; rfl, clear⟩
    | completed _ _ i _ _ _ hc =>
      obtain ⟨-, -, same, -⟩ := hc.frame
      exact .inl (same.trans overrun)

end Sys2Proof.Machine
end

section
/-! PROOFS. `STATUS` (10_state.md R38): the fields of the word that a read returns, and what a write changes. -/

namespace Sys2Proof.Machine

theorem statusWord_bits (s : State) :
    s.statusWord.getLsbD 0 = s.busy ∧ s.statusWord.getLsbD 1 = s.active.valid ∧
      s.statusWord.getLsbD 2 = s.iter.active ∧ s.statusWord.getLsbD 3 = s.exhausted ∧
      s.statusWord.getLsbD 4 = s.status.overrun ∧ s.statusWord.getLsbD 5 = s.status.fatal := by
  simp only [State.statusWord, BitVec.getLsbD_append]
  simp

theorem statusWord_busy (s : State) : s.statusWord.getLsbD 0 = s.busy := (statusWord_bits s).1

theorem statusWord_exhausted (s : State) : s.statusWord.getLsbD 3 = s.exhausted := by
  obtain ⟨-, -, -, h, -⟩ := statusWord_bits s
  exact h

theorem statusWord_err (s : State) : s.statusWord.extractLsb' 8 4 = s.status.err.code := by
  apply BitVec.eq_of_getLsbD_eq
  intro j hj
  simp only [State.statusWord, BitVec.getLsbD_append, BitVec.getLsbD_extractLsb']
  simp [hj]
  omega

theorem statusWord_reserved (s : State) : s.statusWord.extractLsb' 6 2 = 0 ∧ s.statusWord.extractLsb' 12 20 = 0 := by
  constructor
  · apply BitVec.eq_of_getLsbD_eq
    intro j hj
    simp only [State.statusWord, BitVec.getLsbD_append, BitVec.getLsbD_extractLsb']
    simp [hj]
  · apply BitVec.eq_of_getLsbD_eq
    intro j hj
    simp only [State.statusWord, BitVec.getLsbD_append, BitVec.getLsbD_extractLsb']
    simp [hj]
    omega

/-- The mask that clears `OVERRUN`, field by field. -/
theorem statusWord_setOverrun_false (s : State) : (s.setOverrun false).statusWord = s.statusWord &&& 0xFFFFFFEF := by
  have mask : (0xFFFFFFEF : Word) = BitVec.allOnes 20 ++ BitVec.allOnes 4 ++ BitVec.allOnes 2 ++ BitVec.allOnes 1 ++ 0#1
    ++ BitVec.allOnes 1 ++ BitVec.allOnes 1 ++ BitVec.allOnes 1 ++ BitVec.allOnes 1 := by decide
  rw [mask]
  unfold State.statusWord
  iterate 8 rw [BitVec.and_append]
  simp only [BitVec.and_allOnes, BitVec.and_zero]
  rfl

/-- The mask that clears `ERR` and `BUSY`, field by field: what a completion with `ERR = NONE` does to `STATUS`. -/
theorem statusWord_finish_none (s : State) : (s.finish .none).statusWord = s.statusWord &&& 0xFFFFF0FE := by
  have mask : (0xFFFFF0FE : Word) = BitVec.allOnes 20 ++ 0#4 ++ BitVec.allOnes 2 ++ BitVec.allOnes 1 ++ BitVec.allOnes 1
    ++ BitVec.allOnes 1 ++ BitVec.allOnes 1 ++ BitVec.allOnes 1 ++ 0#1 := by decide
  rw [mask]
  unfold State.statusWord
  iterate 8 rw [BitVec.and_append]
  simp only [BitVec.and_allOnes, BitVec.and_zero]
  rfl

theorem writeReg_status (v : Word) (s : State) :
    writeReg .status v s = s.setOverrun (s.status.overrun && !v.getLsbD 4) := by
  rw [writeReg]
  cases v.getLsbD 4 with
  | true => simp
  | false => simp [State.setOverrun]

/-- `STATUS` after a write: the one bit that a write may clear is bit 4. -/
theorem statusWord_writeReg_status (v : Word) (s : State) :
    (writeReg .status v s).statusWord = s.statusWord &&& ~~~(v &&& 0x00000010) := by
  have bit : v &&& 0x00000010 = if v.getLsbD 4 then 0x00000010 else 0 := BitVec.and_twoPow v 4
  rw [writeReg, bit]
  cases v.getLsbD 4 with
  | true => exact statusWord_setOverrun_false s
  | false => exact BitVec.and_allOnes.symm

/-- Settles O43: the fields of the word, the effect of a write, and the codes one by one. -/
theorem statusRegister : Obligations.StatusRegister := by
  refine ⟨fun s => ?_, fun v s => ⟨writeReg_status v s, statusWord_writeReg_status v s⟩, rfl, resetValues.1 .status⟩
  obtain ⟨busy, valid, active, exhausted, overrun, fatal⟩ := statusWord_bits s
  obtain ⟨low, high⟩ := statusWord_reserved s
  exact ⟨busy, valid, active, exhausted, overrun, fatal, low, statusWord_err s, high⟩

end Sys2Proof.Machine
end

section
/-! PROOFS. The operations of a host program on the host's turn (20_memory.md R65 to R69, 30_encoding.md R102). -/

namespace Sys2Proof.Machine

/-- The schedule is no part of what an access sees or touches. -/
theorem busAccess_dropTurn (a : Access) (s : State) : busAccess a s.dropTurn = mapNext State.dropTurn (busAccess a s) := by
  rcases busAccess_cases a s with ⟨target, h⟩ | ⟨reg, rfl, -⟩ | ⟨reg, v, rfl, -⟩
  · have refused : ¬a.wellFormed = true := by simp [← Access.target_isSome, target]
    rw [busAccess_of_not_wellFormed refused, busAccess_of_not_wellFormed refused]
    rfl
  · rw [busAccess_read, busAccess_read, State.dropTurn, State.setSchedule, readReg_host]
    rfl
  · obtain ⟨-, -, -, -, -, -, host⟩ := writeReg_keeps reg v s
    have moved : writeReg reg v s.dropTurn = (writeReg reg v s).dropTurn := by
      rw [State.dropTurn, State.dropTurn, State.setSchedule, State.setSchedule, writeReg_host, host]
    rw [busAccess_write, busAccess_write, moved]
    rfl

/-- The state after the host's operation: the access's own, with the turn and the operation used up. -/
def State.afterOp (op : HostOp) (busy : Bool) (rest : List HostOp) (t : State) : State :=
  t.dropTurn.setProgram (op.remaining busy rest)

/-- A step on the host's turn makes the access of the next operation, with the outcome that the bus gives it. -/
theorem step_hostOp {s : State} {op : HostOp} {rest : List HostOp} (turn : s.turn = .host)
    (program : s.host.program = op :: rest) :
    step s = mapNext (State.afterOp op s.busy rest) (busAccess op.toAccess s) := by
  rw [step_host turn, hostStep_of_program (s := s.dropTurn) program, busAccess_dropTurn]
  cases busAccess op.toAccess s <;> rfl

/-- The host's step of an operation that writes a register and is then done. -/
theorem step_hostWrite {s : State} {op : HostOp} {rest : List HostOp} {reg : Reg} {v : Word} (turn : s.turn = .host)
    (program : s.host.program = op :: rest) (access : op.toAccess = .write reg.offset (.word v))
    (once : op.remaining s.busy rest = rest) :
    step s = .next { writeReg reg v s with
      host := { program := rest, schedule := s.host.schedule.tail, responses := .written reg :: s.host.responses } } := by
  obtain ⟨-, -, -, -, -, -, host⟩ := writeReg_keeps reg v s
  rw [step_hostOp turn program, access, busAccess_write, mapNext_next, State.afterOp, once, ← host]
  rfl

/-- The host's step of an operation that reads a register. -/
theorem step_hostRead {s : State} {op : HostOp} {rest : List HostOp} {reg : Reg} (turn : s.turn = .host)
    (program : s.host.program = op :: rest) (access : op.toAccess = .read reg.offset .w32) :
    step s = .next { s with
      host := { program := op.remaining s.busy rest, schedule := s.host.schedule.tail,
                responses := .value reg (readReg reg s) :: s.host.responses } } := by
  rw [step_hostOp turn program, access, busAccess_read, mapNext_next]
  rfl

theorem step_wr {s : State} {reg : Reg} {v : Word} {rest : List HostOp} (turn : s.turn = .host)
    (program : s.host.program = .wr reg v :: rest) :
    step s = .next { writeReg reg v s with
      host := { program := rest, schedule := s.host.schedule.tail, responses := .written reg :: s.host.responses } } :=
  step_hostWrite turn program rfl rfl

theorem step_issue {s : State} {c : Instr} {rest : List HostOp} (turn : s.turn = .host)
    (program : s.host.program = .issue c :: rest) :
    step s = .next { writeReg .cmd (encode c) s with
      host := { program := rest, schedule := s.host.schedule.tail, responses := .written .cmd :: s.host.responses } } :=
  step_hostWrite turn program rfl rfl

theorem setWidth_eq_zero_append {n : Nat} (k : Nat) (x : BitVec n) : x.setWidth (k + n) = 0#k ++ x := by
  apply BitVec.eq_of_getLsbD_eq
  intro j hj
  rw [BitVec.getLsbD_setWidth, BitVec.getLsbD_append]
  by_cases low : j < n
  · simp [low, hj]
  · simp [low, BitVec.getLsbD_of_ge x j (by omega)]

/-- Settles O41: a read is `step_hostRead`, and a narrow element is read with zeros above it. -/
theorem readsChangeNothing : Obligations.ReadsChangeNothing := by
  refine ⟨fun reg rest s turn program => step_hostRead turn program rfl, fun s => ?_, rfl⟩
  have rounds := setWidth_eq_zero_append (n := 16) 16
  have k := setWidth_eq_zero_append 26 s.active.k
  exact ⟨rfl, rfl, rounds _, rfl, rfl, rfl, rfl, rfl, rfl, rfl, k, rounds _, rfl, rfl, rfl, rfl⟩

/-- A write of a staging register changes no other register of the window. -/
theorem readReg_writeReg_of_ne {reg reg' : Reg} (v : Word) (s : State) (cmd : reg ≠ .cmd) (status : reg ≠ .status)
    (ne : reg' ≠ reg) : readReg reg' (writeReg reg v s) = readReg reg' s := by
  cases reg
  case cmd => exact absurd rfl cmd
  case status => exact absurd rfl status
  case cfgN => cases reg' with | cfgN => exact absurd rfl ne | _ => rfl
  case cfgRounds => cases reg' with | cfgRounds => exact absurd rfl ne | _ => rfl
  case cfgSeedLo => cases reg' with | cfgSeedLo => exact absurd rfl ne | _ => rfl
  case cfgSeedHi => cases reg' with | cfgSeedHi => exact absurd rfl ne | _ => rfl
  case operand => cases reg' with | operand => exact absurd rfl ne | _ => rfl
  all_goals rfl

/-- `CFG_ROUNDS` stores the low half of the word, and reads back with the high half zero (10_state.md R24). -/
theorem setWidth_low_half (v : Word) :
    v.setWidth 16 = v.extractLsb' 0 16 ∧ (v.setWidth 16).setWidth 32 = v &&& 0x0000FFFF := by
  refine ⟨BitVec.eq_of_toNat_eq (by simp), BitVec.eq_of_toNat_eq ?_⟩
  have low : (v &&& 0x0000FFFF).toNat = v.toNat % 2 ^ 16 := toNat_and_mask v 16
  rw [low, BitVec.toNat_setWidth, BitVec.toNat_setWidth]
  omega

/-- Settles O42: a write is `step_wr`, and `writeReg` is read case by case. -/
theorem registerWritesReadBack : Obligations.RegisterWritesReadBack := by
  refine ⟨fun reg v rest s => step_wr, fun v s => ⟨rfl, ?_, rfl, rfl, rfl⟩,
    fun v s => ⟨rfl, (setWidth_low_half v).2, rfl, rfl, rfl⟩, fun reg reg' v s => readReg_writeReg_of_ne v s,
    fun reg v s hreg => ?_⟩
  · rw [writeReg, (setWidth_low_half v).1]
    rfl
  · cases reg with
    | cmd | status | cfgN | cfgRounds | cfgSeedLo | cfgSeedHi | operand => simp at hreg
    | result | resultIdx | walks | n | k | rounds | seedLo | seedHi | iterIdx | caps => rfl

/-- An access leaves the schedule to the step. -/
theorem busAccess_schedule {a : Access} {s t : State} (h : busAccess a s = .next t) :
    t.host.schedule = s.host.schedule := by
  obtain ⟨-, hfault⟩ | ⟨reg, -, hread⟩ | ⟨reg, v, -, hwrite⟩ := busAccess_cases a s
  · cases hfault.symm.trans h
  · obtain rfl := Host.Outcome.next.inj (hread.symm.trans h)
    rfl
  · obtain rfl := Host.Outcome.next.inj (hwrite.symm.trans h)
    obtain ⟨-, -, -, -, -, -, host⟩ := writeReg_keeps reg v s
    rw [State.respond_host, host]

/-- Settles O58: each operation is the access that it stands for, and `wait` stays by the bit of `STATUS` it reads. -/
theorem hostOperations : Obligations.HostOperations := by
  refine ⟨fun c rest s => step_issue, fun rest s turn program => ?_, fun a rest s turn program => ?_,
    fun s turn program => ?_⟩
  · rw [readReg, statusWord_busy]
    exact step_hostRead turn program rfl
  · have hstep := step_hostOp turn program
    refine ⟨fun t h => ?_, fun e h => ?_⟩
    · rw [hstep, HostOp.toAccess, h, mapNext_next, ← busAccess_schedule h]
      rfl
    · rw [hstep, HostOp.toAccess, h]
      rfl
  · have idle : hostStep s.dropTurn = .next s.dropTurn := by simp only [hostStep, State.dropTurn_host, program]
    exact (step_host turn).trans idle

end Sys2Proof.Machine
end

section
/-! PROOFS. The assembler of command mnemonics (30_encoding.md R101). -/

namespace Sys2Proof.Machine

theorem assemble_mix (cs : List Char) : assemble (['m', 'i', 'x', ' '] ++ cs) = readRound cs := rfl

theorem readRound_eq {cs : List Char} {v : Nat} (h : readNumber cs = some v) :
    readRound cs = if v ≤ 65535 then some (.mix (BitVec.ofNat 16 v)) else none := by
  simp only [readRound, h]

/-- The word of `mix v`: the number is exact in the 16 bits of RIDX. -/
theorem encode_mix_ofNat {v : Nat} (h : v ≤ 65535) :
    encode (.mix (BitVec.ofNat 16 v)) = (BitVec.ofNat 32 v <<< 16) ||| 0x00000006 := by
  have exact16 : (BitVec.ofNat 16 v).setWidth 32 = BitVec.ofNat 32 v := BitVec.eq_of_toNat_eq (by simp; omega)
  rw [encode_mix, exact16]

/-- Settles O57: seven fixed spellings, and `mix` with the number that follows it. -/
theorem assemblerWords : Obligations.AssemblerWords := by
  refine ⟨rfl, rfl, rfl, rfl, rfl, rfl, rfl, fun cs v number => ⟨fun small => ?_, fun large => ?_⟩⟩
  · rw [assembleWord, assemble_mix, readRound_eq number, if_pos small, Option.map_some, encode_mix_ofNat small]
  · rw [assembleWord, assemble_mix, readRound_eq number, if_neg (by omega), Option.map_none]

end Sys2Proof.Machine
end

section
/-! PROOFS. The commands (41_round_mixer.md R125, 42_domain_cipher.md R153, 43_cycle_walk_iterator.md R176 to R182): one
equation per command and outcome, and from these the order of the checks (60_exceptions.md R216). -/

namespace Sys2Proof.Machine

variable {s t : State}

/-! ### One equation per command and outcome -/

theorem exec_notConfigured {i : Instr} (nop : i ≠ .nop) (config : ∀ src, i ≠ .config src)
    (invalid : s.active.valid = false) : exec i s = .next (s.finish .notConfigured) := by
  rw [exec_eq_execWith]
  cases i with
  | nop => exact absurd rfl nop
  | config src => exact absurd rfl (config src)
  | get => rw [execWith, execGetWith, if_pos invalid, raise_eq]
  | iterStart => rw [execWith, execIterStart, if_pos invalid, raise_eq]
  | iterNext => rw [execWith, execIterNextWith, if_pos invalid, raise_eq]
  | cipher => rw [execWith, execCipherWith, if_pos invalid, raise_eq]
  | mix r => rw [execWith, execMixWith, if_pos invalid, raise_eq]

theorem exec_config_valid (src : SeedSource) (hn : s.pend.n ≠ 0) (hr : s.pend.rounds ≠ 0) :
    exec (.config src) s = .next
      ((((s.afterSeed src).install s.pend.n (kbits s.pend.n) s.pend.rounds (s.configSeed src)).setIter 0 false).finish
        .none) := by
  rw [exec_eq_execWith, execWith, execConfig, State.configN, State.configRounds, if_neg hn, if_neg hr, succeed_eq]

theorem exec_iterStart_valid (valid : s.active.valid = true) :
    exec .iterStart s = .next ((s.setIter 0 true).finish .none) := by
  rw [exec_eq_execWith, execWith, execIterStart, if_neg (by simp [valid]), succeed_eq]

theorem exec_iterNext_notActive (valid : s.active.valid = true) (inactive : s.iter.active = false) :
    exec .iterNext s = .next (s.finish .iterNotActive) := by
  rw [exec_eq_execWith, execWith, execIterNextWith, if_neg (by simp [valid]), if_pos inactive, raise_eq]

theorem exec_iterNext_end (valid : s.active.valid = true) (active : s.iter.active = true)
    (atEnd : s.active.n.toNat ≤ s.iter.idx.toNat) : exec .iterNext s = .next (s.finish .iterEnd) := by
  rw [exec_eq_execWith, execWith, execIterNextWith, if_neg (by simp [valid]), if_neg (by simp [active]), if_pos atEnd,
    raise_eq]

theorem exec_iterNext_walked (valid : s.active.valid = true) (active : s.iter.active = true)
    (inRange : s.iter.idx.toNat < s.active.n.toNat) {v : Word} {c : Nat}
    (walked : s.walk block s.iter.idx = some (v, c)) :
    exec .iterNext s = .next
      (((s.writeResults v s.iter.idx (BitVec.ofNat 32 c)).setIter (s.iter.idx + 1) true).finish .none) := by
  rw [exec_eq_execWith, execWith, execIterNextWith, if_neg (by simp [valid]), if_neg (by simp [active]),
    if_neg (by omega), walked, ← active]
  exact succeed_eq _

theorem exec_cipher_valid (valid : s.active.valid = true) (inRange : s.pend.op.toNat < 2 ^ s.active.k.toNat) :
    exec .cipher s = .next ((s.writeResults (s.F block s.pend.op) s.pend.op 1).finish .none) := by
  rw [exec_eq_execWith, execWith, execCipherWith, if_neg (by simp [valid]), State.cipherInput, if_neg (by omega),
    succeed_eq]

theorem exec_cipher_outOfRange (valid : s.active.valid = true) (outside : 2 ^ s.active.k.toNat ≤ s.pend.op.toNat) :
    exec .cipher s = .next (s.finish .outOfRange) := by
  rw [exec_eq_execWith, execWith, execCipherWith, if_neg (by simp [valid]), State.cipherInput, if_pos outside, raise_eq]

/-- Settles O28: the five commands check `CFG_VALID` before anything else. -/
theorem notConfiguredBeforeConfig : Obligations.NotConfiguredBeforeConfig :=
  fun _ _ nop config invalid => exec_notConfigured nop config invalid

/-- Settles O18: `NOP` is the completion with `ERR = NONE` and no other write. -/
theorem nopCompletes : Obligations.NopCompletes := fun s => ⟨s.finish .none, rfl, rfl, statusWord_finish_none s⟩

/-- Settles O25: the two checks of `ITER_NEXT` that follow `CFG_VALID`, in order. -/
theorem iterNextWithoutAnElement : Obligations.IterNextWithoutAnElement :=
  fun _ valid => ⟨exec_iterNext_notActive valid, exec_iterNext_end valid⟩

/-! ### CONFIG -/

/-- A seed is its two halves (10_state.md R31). -/
theorem seed_halves (x : Seed) : (x.extractLsb' 32 32 ++ x.extractLsb' 0 32 : Seed) = x := by
  apply BitVec.eq_of_getLsbD_eq
  intro j hj
  rw [BitVec.getLsbD_append]
  by_cases low : j < 32
  · simp [low]
  · simp [low, show j - 32 < 32 by omega, show 32 + (j - 32) = j by omega]

/-- Settles O19: the installed configuration is the latch's, and the seed is split into its halves. -/
theorem configInstallsTheConfiguration : Obligations.ConfigInstallsTheConfiguration := by
  intro src s hn hr
  refine ⟨_, exec_config_valid src hn hr, ?_⟩
  cases src with
  | staging => exact ⟨rfl, seed_halves _, rfl⟩
  | entropy => exact ⟨rfl, seed_halves _, rfl⟩

/-- Only a `CONFIG` with S = 1 that passes validation draws from the entropy port, and it draws once (R179). -/
theorem exec_draws {i : Instr} (h : exec i s = .next t) :
    t.draws = s.draws + (if i = .config .entropy ∧ s.pend.n ≠ 0 ∧ s.pend.rounds ≠ 0 then 1 else 0) := by
  cases exec_cases h with
  | config src hn hr =>
    cases src with
    | staging => simp
    | entropy =>
      rw [if_pos ⟨rfl, hn, hr⟩]
      rfl
  | raised _ e ne =>
    have noDraw : ¬(i = .config .entropy ∧ s.pend.n ≠ 0 ∧ s.pend.rounds ≠ 0) := fun ⟨entropy, hn, hr⟩ => by
      rw [entropy, exec_config_valid .entropy hn hr] at h
      exact ne (congrArg (·.status.err) (Host.Outcome.next.inj h).symm)
    rw [if_neg noDraw]
    rfl
  | fatal _ walks => obtain rfl | rfl := walks <;> simp
  | nop | get | iterStart | iterNext | cipher | mix => simp

/-- Settles O46: a step that completes no command draws nothing, and a command draws by `exec_draws`. -/
theorem entropyDrawnOnlyByConfig : Obligations.EntropyDrawnOnlyByConfig := by
  intro s t h
  cases step_effect h with
  | reset _ none eq => simp [none, eq]
  | kept _ none kept => simp [none, kept.draws]
  | illegal _ _ none eq => simp [none, eq]
  | command i completing run =>
    rw [← exec_eq_execWith] at run
    simpa [completing] using exec_draws run

/-! ### The iterator and the walk -/

/-- Settles O23: index 0 lies below `N` because `N` is at least 1. -/
theorem iterStartCompletes : Obligations.IterStartCompletes := by
  intro s valid
  refine ⟨_, exec_iterStart_valid valid, rfl, fun inv => ?_⟩
  obtain ⟨hpos, -⟩ := inv valid
  have first : ¬s.active.n.toNat ≤ 0 := by omega
  rw [readReg, statusWord_exhausted]
  exact decide_eq_false first

/-- The walk of a configured block, with its length within the cap, which is at most `N` and so exact in 32 bits. -/
theorem State.Configured.walk_length {s : State} (hs : s.Configured) {i : Word} (hi : i.toNat < s.active.n.toNat) :
    ∃ c, Lands (s.F block) s.active.n i c ∧ s.walk block i = some ((s.F block)^[c] i, c) ∧
      c ≤ walkCap s.active.n s.active.k ∧ (BitVec.ofNat 32 c).toNat = c := by
  obtain ⟨-, hk, -⟩ := hs.2 hs.1
  obtain ⟨c, hwalk, -, hcap, hcapN, -⟩ :=
    walkEndsWithinTheCap block.mix s.active.rounds.toNat s.active.seed s.active.n i hi
  have hn := s.active.n.isLt
  rw [← hk] at hwalk hcap hcapN
  exact ⟨c, (lands_of_walkLoop hwalk).1, hwalk, hcap, Nat.mod_eq_of_lt (by omega)⟩

/-- Settles O21: below `N` the walk answers its first return, within the cap. -/
theorem getDeliversTheWalkedValue : Obligations.GetDeliversTheWalkedValue := by
  intro s hs hi
  obtain ⟨c, lands, walked, cap, exact32⟩ := hs.walk_length hi
  exact ⟨c, lands.pos, cap, lands.inside, lands.outside, exact32, exec_get_walked hs.1 hi walked⟩

/-- Settles O24: the walk is that of `GET`, and `ITER_IDX` grows from below `N`, so it does not wrap. -/
theorem iterNextDeliversTheWalkedValue : Obligations.IterNextDeliversTheWalkedValue := by
  intro s hs active hi
  obtain ⟨c, lands, walked, cap, -⟩ := hs.walk_length hi
  have next : (s.iter.idx + 1).toNat = s.iter.idx.toNat + 1 := by bv_omega
  refine ⟨c, _, lands.pos, cap, lands.inside, lands.outside, exec_iterNext_walked hs.1 active hi walked, rfl, next, ?_⟩
  rw [readReg, statusWord_exhausted, State.exhausted]
  simp only [State.finish_iter, State.setIter_iter, State.finish_active, State.setIter_active, State.writeResults_active,
    Bool.true_and, decide_eq_true_eq, next]
  omega

/-! ### CIPHER -/

/-- The round state as a tuple. -/
def Halves.tuple (h : Halves) : Word × Word × Nat × Nat := (h.l, h.r, h.wl, h.wr)

/-- One round as R148 writes it, on a tuple. -/
def tupleRound (m : MixFn) (seed : Seed) : Word × Word × Nat × Nat → Nat → Word × Word × Nat × Nat :=
  fun (l, r, wl, wr) i => (r, l ^^^ (m r (BitVec.ofNat 16 i) seed &&& BitVec.ofNat 32 (2 ^ wl - 1)), wr, wl)

theorem foldl_tupleRound (m : MixFn) (seed : Seed) (rounds : Nat) (h : Halves) :
    (List.range rounds).foldl (tupleRound m seed) h.tuple = (roundsFrom m seed rounds 0 h).tuple := by
  induction rounds with
  | zero => rfl
  | succ rounds ih =>
    rw [List.range_succ, List.foldl_append, ih, roundsFrom_succ, Nat.zero_add]
    rfl

theorem split_tuple (k : Nat) (x : Word) :
    (split k x).tuple = (x >>> (k / 2), x &&& BitVec.ofNat 32 (2 ^ (k / 2) - 1), (k + 1) / 2, k / 2) := by
  have hi : widthHi k = (k + 1) / 2 := Nat.shiftRight_eq_div_pow ..
  have lo : widthLo k = k / 2 := Nat.shiftRight_eq_div_pow ..
  rw [split, hi, lo]
  rfl

/-- Settles O26: the two outcomes of `CIPHER`, `2^32` and `2^0` as its bounds, and the rounds as a fold. -/
theorem cipherCompletes : Obligations.CipherCompletes := by
  refine ⟨fun s valid => ⟨exec_cipher_valid valid, exec_cipher_outOfRange valid⟩, fun s t valid h => ?_,
    fun s x => rfl, fun m k rounds seed x => ?_⟩
  · by_cases inRange : s.pend.op.toNat < 2 ^ s.active.k.toNat
    · obtain rfl := Host.Outcome.next.inj ((exec_cipher_valid valid inRange).symm.trans h)
      refine ⟨fun _ => rfl, fun hk => iff_of_true rfl (BitVec.eq_of_toNat_eq ?_)⟩
      rw [hk] at inRange
      simpa using inRange
    · obtain rfl := Host.Outcome.next.inj ((exec_cipher_outOfRange valid (by omega)).symm.trans h)
      refine ⟨fun hk => absurd s.pend.op.isLt ?_, fun hk => iff_of_false (by simp) fun hop => inRange ?_⟩
      · rwa [hk] at inRange
      · rw [hop]
        exact Nat.two_pow_pos _
  · intro a b start
    have fold := foldl_tupleRound m seed rounds (split k x)
    rw [split_tuple] at fold
    change match (List.range rounds).foldl (tupleRound m seed) start with
      | (l, r, _, wr) => cipher m k rounds seed x = ((l <<< wr) ||| r)
    rw [fold]
    rfl

/-- Settles O38: both apply one `F`, so the walk ends at once exactly where `CIPHER`'s value is below `N`. -/
theorem cipherIsTheFirstStepOfTheWalk : Obligations.CipherIsTheFirstStepOfTheWalk := by
  intro s t u hs hi ht hu
  obtain ⟨hpos, hk, -⟩ := hs.2 hs.1
  have inRange : s.pend.op.toNat < 2 ^ s.active.k.toNat := hk ▸ hi.trans_le (le_two_pow_kbits hpos)
  obtain ⟨c, lands, walked, -, exact32⟩ := hs.walk_length hi
  obtain rfl := Host.Outcome.next.inj ((exec_cipher_valid hs.1 inRange).symm.trans ht)
  obtain rfl := Host.Outcome.next.inj ((exec_get_walked hs.1 hi walked).symm.trans hu)
  have hpos := lands.pos
  refine ⟨rfl, rfl, fun below => ?_, fun above => ?_⟩
  · have first : c = 1 := by
      by_contra hne
      have := lands.outside 1 le_rfl (by omega)
      exact absurd below (by simpa using this)
    subst first
    rfl
  · have later : c ≠ 1 := by
      rintro rfl
      exact absurd lands.inside (by simpa using above)
    show 2 ≤ (BitVec.ofNat 32 c).toNat
    rw [exact32]
    omega

end Sys2Proof.Machine
end

section
/-! PROOFS. The completion of the latched word (60_exceptions.md R210, R216): which command runs, what every command leaves
unchanged, and that no command reads `ERR` or `OVERRUN` (10_state.md R22). -/

namespace Sys2Proof.Machine

variable {s t : State}

/-! ### The command that runs -/

theorem completePending_legal {i : Instr} (word : decode s.pend.cmd = .legal i) : completePending exec s = exec i s := by
  rw [completePending, word]

theorem completePending_illegal {why : IllegalReason} (word : decode s.pend.cmd = .illegal why) :
    completePending exec s = .next (s.finish .illegalCommand) := by
  rw [completePending, word]
  rfl

/-- The engine's step while `BUSY = 1`. -/
theorem step_engine_busy (turn : s.turn = .engine) (busy : s.busy = true) : step s = completePending exec s.dropTurn := by
  rw [step_engine turn, if_pos busy]

theorem tableWord_toNat (w : Word) : tableWord 32 w.toNat = w := by
  rw [tableWord, Nat.mod_eq_of_lt w.isLt, BitVec.ofNat_toNat, BitVec.setWidth_eq]

theorem step_legal {i : Instr} (turn : s.turn = .engine) (busy : s.busy = true) (word : decode s.pend.cmd = .legal i) :
    step s = exec i s.dropTurn := by
  rw [step_engine_busy turn busy, completePending_legal (s := s.dropTurn) word]

/-- Settles O5: the engine's step completes the latched word, and `withFetchWord` latches the encoded word. -/
theorem stepRunsTheDecodedCommand : Obligations.StepRunsTheDecodedCommand := by
  refine ⟨fun s i turn busy word => step_legal turn busy word, fun s i => ?_⟩
  rw [State.withFetchWord, tableWord_toNat]
  exact step_legal rfl rfl (decode_encode i)

/-- Settles O6: an illegal word is accepted like any other, and its completion is `raise`. -/
theorem illegalWordCompletes : Obligations.IllegalWordCompletes := by
  refine ⟨fun w why s _ alive idle => ⟨offerCommand_idle alive idle, rfl⟩, fun s why turn busy word => ?_⟩
  rw [step_engine_busy turn busy, completePending_illegal (s := s.dropTurn) word]
  rfl

/-- Settles O17: the outcome of each check is that command's own equation, and a host access keeps `ERR`. -/
theorem errorPriority : Obligations.ErrorPriority := by
  refine ⟨fun s t h => ?_, fun a s t h => ?_⟩
  · have illegal {e : ErrCode} (run : completePending exec s = .next (s.finish e)) : t.status.err = e := by
      obtain rfl := Host.Outcome.next.inj (run.symm.trans h)
      rfl
    have legal {i : Instr} {e : ErrCode} (word : decode s.pend.cmd = .legal i) (run : exec i s = .next (s.finish e)) :
        t.status.err = e := illegal ((completePending_legal word).trans run)
    refine ⟨fun why word => illegal (completePending_illegal word),
      fun i word nop config invalid => legal word (exec_notConfigured nop config invalid),
      fun word valid inactive => legal word (exec_iterNext_notActive valid inactive),
      fun src word hn => legal word ((configRejectsBadInputs src s).1 hn),
      fun src word hn hr => legal word ((configRejectsBadInputs src s).2 hn hr),
      fun word valid outside => legal word (exec_get_outOfRange valid outside),
      fun word valid outside => legal word (exec_cipher_outOfRange valid outside),
      fun word valid active atEnd => legal word (exec_iterNext_end valid active atEnd)⟩
  · obtain ⟨-, hfault⟩ | ⟨reg, -, hread⟩ | ⟨reg, v, -, hwrite⟩ := busAccess_cases a s
    · cases hfault.symm.trans h
    · obtain rfl := Host.Outcome.next.inj (hread.symm.trans h)
      rfl
    · obtain rfl := Host.Outcome.next.inj (hwrite.symm.trans h)
      exact (EngineKept.writeReg reg v s).err

/-! ### What a command leaves unchanged -/

section
variable {p : Params} {i : Instr} (h : Completion p s i t)
include h

/-- Only a command with a walk can become fatal (60_exceptions.md R217). -/
theorem Completion.keeps_fatal (get : i ≠ .get) (iterNext : i ≠ .iterNext) : t.status.fatal = s.status.fatal := by
  cases h with
  | fatal _ walks => exact absurd walks (by simp [get, iterNext])
  | config src => simp
  | nop | raised | get | iterStart | iterNext | cipher | mix => rfl

theorem Completion.keeps_iter (hi : i = .nop ∨ i = .get ∨ i = .cipher ∨ ∃ r, i = .mix r) : t.iter = s.iter := by
  cases h with
  | config | iterStart | iterNext => simp at hi
  | nop | raised | fatal | get | cipher | mix => rfl

theorem Completion.keeps_results (hi : i = .nop ∨ i = .iterStart ∨ ∃ src, i = .config src) : t.results = s.results := by
  cases h with
  | get | iterNext | cipher | mix => simp at hi
  | config src => simp
  | nop | raised | fatal | iterStart => rfl

end

/-- Settles O14, from the cases of a completion. -/
theorem everyCommandFrame : Obligations.EveryCommandFrame := by
  intro i s
  obtain ⟨t, ht, hc⟩ := exec_completion i s
  obtain ⟨staging, host, overrun, pend⟩ := hc.frame
  exact ⟨t, ht, staging, host, overrun, pend, hc.keeps_fatal, hc.keeps_active, hc.keeps_iter, hc.keeps_results⟩

/-! ### The outcome bits -/

/-- `OVERRUN` and `ERR` as given. -/
def State.setOutcomeBits (overrun : Bool) (err : ErrCode) (s : State) : State :=
  { s with status := { s.status with overrun := overrun, err := err } }

section
variable (b : Bool) (err : ErrCode) (p : Params) (s : State)

theorem raise_setOutcomeBits (e : ErrCode) :
    raise e (s.setOutcomeBits b err) = mapNext (State.setOverrun b) (raise e s) := (rfl)

@[simp] theorem getIndex_setOutcomeBits : (s.setOutcomeBits b err).getIndex = s.getIndex := (rfl)

@[simp] theorem walk_setOutcomeBits (idx : Word) : (s.setOutcomeBits b err).walk p idx = s.walk p idx :=
  walk_congr p rfl idx

@[simp] theorem iter_setOutcomeBits : (s.setOutcomeBits b err).iter = s.iter := (rfl)

/-- Every completion overwrites `ERR` and carries `OVERRUN`, and no check or value depends on them. -/
theorem execWith_setOutcomeBits (i : Instr) :
    execWith p i (s.setOutcomeBits b err) = mapNext (State.setOverrun b) (execWith p i s) := by
  cases i with
  | nop => rfl
  | config src =>
    simp only [execWith, execConfig, mapNext_ite, ← raise_setOutcomeBits b err]
    cases src <;> rfl
  | get =>
    simp only [execWith, execGetWith, mapNext_ite, ← raise_setOutcomeBits b err, walk_setOutcomeBits,
      getIndex_setOutcomeBits]
    cases s.walk p s.getIndex <;> rfl
  | iterStart =>
    simp only [execWith, execIterStart, mapNext_ite, ← raise_setOutcomeBits b err]
    rfl
  | iterNext =>
    simp only [execWith, execIterNextWith, mapNext_ite, ← raise_setOutcomeBits b err, walk_setOutcomeBits,
      iter_setOutcomeBits]
    cases s.walk p s.iter.idx <;> rfl
  | cipher =>
    simp only [execWith, execCipherWith, mapNext_ite, ← raise_setOutcomeBits b err]
    rfl
  | mix r =>
    simp only [execWith, execMixWith, mapNext_ite, ← raise_setOutcomeBits b err]
    rfl

end

/-- Settles O12: the outcome with other bits is the same outcome, with the new `OVERRUN`. -/
theorem outcomeBitsAreNoInput : Obligations.OutcomeBitsAreNoInput := by
  intro i s overrun err
  obtain ⟨t, ht, -⟩ := exec_completion i s
  refine ⟨t, ht, ?_⟩
  rw [exec_eq_execWith] at ht ⊢
  have same := execWith_setOutcomeBits overrun err block s i
  rw [ht] at same
  exact same

end Sys2Proof.Machine
end

section
/-! PROOFS. The least bit width (42_domain_cipher.md R140), and this block as the machine for its parameters (00_scope.md
R8, R9). -/

namespace Sys2Proof.Machine

/-- Settles O30, from the bound that characterises `kbits`. -/
theorem kbitsIsMinimal : Obligations.KbitsIsMinimal := by
  intro n hn
  have hpos : 0 < n.toNat := Nat.pos_of_ne_zero fun h => hn (BitVec.eq_of_toNat_eq h)
  exact ⟨le_two_pow_kbits hpos, fun j hj => (kbits_le_iff hpos j).mpr hj, kbits_le n⟩

/-- Settles O60: `exec` and `step` were defined at `block`, and its mixer is the formula of R122. -/
theorem blockIsTheMachineForItsParameters : Obligations.BlockIsTheMachineForItsParameters :=
  ⟨exec_eq_execWith, step_eq_stepWith, rfl, rfl, mixRef_append, fun p => ⟨setWidth_eq_zero_append 16 p.defaultRounds, rfl⟩⟩

end Sys2Proof.Machine
end

section
/-! PROOFS. Iteration order (43_cycle_walk_iterator.md R183): along a run the iterator counts the `ITER_NEXT`s up to
`N`. -/

namespace Sys2Proof.Machine

theorem State.Configured.of_eq {s t : State} (hs : s.Configured) (active : t.active = s.active) : t.Configured := by
  rwa [State.Configured, State.ConfigInv, active]

/-- `ITER_NEXT` on an active iteration of a configured block delivers an element, or is past the last one (R182). -/
theorem State.Configured.iterNext_cases {s t : State} (hs : s.Configured) (active : s.iter.active = true)
    (h : exec .iterNext s = .next t) :
    (s.iter.idx.toNat < s.active.n.toNat ∧ ∃ v c, s.walk block s.iter.idx = some (v, c) ∧
        t = ((s.writeResults v s.iter.idx (BitVec.ofNat 32 c)).setIter (s.iter.idx + 1) true).finish .none) ∨
      (s.active.n.toNat ≤ s.iter.idx.toNat ∧ t = s.finish .iterEnd) := by
  by_cases inRange : s.iter.idx.toNat < s.active.n.toNat
  · obtain ⟨c, -, walked⟩ := hs.walk_eq block inRange
    have delivers := exec_iterNext_walked hs.1 active inRange walked
    exact .inl ⟨inRange, _, c, walked, Host.Outcome.next.inj (h.symm.trans delivers)⟩
  · have atEnd : s.active.n.toNat ≤ s.iter.idx.toNat := by omega
    exact .inr ⟨atEnd, Host.Outcome.next.inj (h.symm.trans (exec_iterNext_end hs.1 active atEnd))⟩

/-- In `t` an iteration over the configuration of `s` is active, and `j` elements have been asked for. -/
structure Iterating (s : State) (j : Nat) (t : State) : Prop where
  active : t.active = s.active
  started : t.iter.active = true
  index : t.iter.idx.toNat = min j s.active.n.toNat

/-- The next `ITER_NEXT` delivers the element at index `j`, or ends where `j` has reached `N`. -/
theorem Iterating.iterNext_cases {s t u : State} {j : Nat} (hs : s.Configured) (h : Iterating s j t)
    (run : exec .iterNext t.dropTurn = .next u) :
    (j < s.active.n.toNat ∧ t.iter.idx.toNat = j ∧ (t.iter.idx + 1).toNat = j + 1 ∧
        ∃ v c, s.walk block t.iter.idx = some (v, c) ∧
          u = ((t.dropTurn.writeResults v t.iter.idx (BitVec.ofNat 32 c)).setIter (t.iter.idx + 1) true).finish .none) ∨
      (s.active.n.toNat ≤ j ∧ u = t.dropTurn.finish .iterEnd) := by
  obtain ⟨active, started, index⟩ := h
  have configured : t.dropTurn.Configured := hs.of_eq active
  obtain ⟨inRange, v, c, walked, eq⟩ | ⟨atEnd, eq⟩ := configured.iterNext_cases started run
  · simp only [State.dropTurn_iter, State.dropTurn_active, active] at inRange
    have hj : t.iter.idx.toNat = j := by omega
    exact .inl ⟨by omega, hj, by bv_omega, v, c, (walk_congr block active.symm _).trans walked, eq⟩
  · simp only [State.dropTurn_iter, State.dropTurn_active, active] at atEnd
    exact .inr ⟨by omega, eq⟩

/-- A command other than `CONFIG`, `ITER_START` and `ITER_NEXT` does not touch the iteration. -/
theorem Completion.keeps_iteration {p : Params} {i : Instr} {s t : State} (h : Completion p s i t)
    (allowed : i.keepsIteration = true) (other : i ≠ .iterNext) : t.active = s.active ∧ t.iter = s.iter := by
  cases h with
  | config | iterStart => cases allowed
  | iterNext => exact absurd rfl other
  | nop | raised | fatal | get | cipher | mix => exact ⟨rfl, rfl⟩

theorem Iterating.step {s t u : State} {j : Nat} (hs : s.Configured) (h : Iterating s j t)
    (ok : t.Allows Instr.keepsIteration) (now : step t = .next u) :
    Iterating s (if t.completing = some .iterNext then j + 1 else j) u := by
  have ⟨active, started, index⟩ := h
  obtain ⟨noReset, allowed⟩ := ok
  cases step_effect now with
  | reset turn => exact absurd turn noReset
  | kept _ none kept =>
    rw [if_neg (by simp [none])]
    exact ⟨kept.active.trans active, by rw [kept.iter, started], by rw [kept.iter, index]⟩
  | illegal _ _ none eq =>
    rw [if_neg (by simp [none]), eq]
    exact ⟨active, started, index⟩
  | command i completing run hc =>
    rw [completing]
    by_cases next : i = .iterNext
    · subst next
      rw [← exec_eq_execWith] at run
      rw [if_pos rfl]
      obtain ⟨inside, -, grown, v, c, -, rfl⟩ | ⟨past, rfl⟩ := Iterating.iterNext_cases hs h run
      · exact ⟨active, rfl, grown.trans (by omega)⟩
      · exact ⟨active, started, index.trans (by omega)⟩
    · rw [if_neg fun h => next (Option.some.inj h)]
      obtain ⟨sameActive, sameIter⟩ := hc.keeps_iteration (allowed i completing) next
      exact ⟨sameActive.trans active, by rw [sameIter]; exact started, by rw [sameIter]; exact index⟩

/-- `ITER_START` begins the iteration, and the steps of the run carry it on. -/
theorem Run.iterating {s s0 t : State} {j : Nat} (hs : s.Configured) (start : exec .iterStart s = .next s0)
    (run : Run Instr.keepsIteration j s0 t) : Iterating s j t := by
  induction run with
  | start =>
    obtain rfl := Host.Outcome.next.inj ((exec_iterStart_valid hs.1).symm.trans start)
    exact ⟨rfl, rfl, (Nat.zero_min _).symm⟩
  | more _ ok now ih => exact (ih start).step hs ok now

/-- Settles O53: after `j` elements the iterator is at `min(j, N)`, and the walk reads only the configuration. -/
theorem iterationInIndexOrder : Obligations.IterationInIndexOrder := by
  intro j s s0 t u hs start run completing now
  obtain ⟨turn, busy, word⟩ := turn_busy_of_completing completing
  rw [step_legal turn busy word] at now
  obtain ⟨inside, hj, grown, v, c, walked, rfl⟩ | ⟨past, rfl⟩ := (run.iterating hs start).iterNext_cases hs now
  · have hidx : BitVec.ofNat 32 j = t.iter.idx := by rw [← hj, BitVec.ofNat_toNat, BitVec.setWidth_eq]
    exact ⟨fun _ => ⟨rfl, hj, getValue_eq_some_iff.mpr ⟨c, hidx ▸ walked⟩, grown⟩, fun past => by omega⟩
  · exact ⟨fun inside => by omega, fun _ => ⟨rfl, rfl, rfl⟩⟩

end Sys2Proof.Machine
end

section
/-! PROOFS. Runs with a host (60_exceptions.md R210, 70_reset_and_hazards.md R254, R257): a conforming host never stops the
machine, a command in flight completes at the engine's turn, and `construct` configures the block. -/

namespace Sys2Proof.Machine

/-! ### A conforming host -/

theorem HostOp.remaining_subset (op : HostOp) (busy : Bool) (rest : List HostOp) :
    op.remaining busy rest ⊆ op :: rest := by
  cases op with
  | wait => cases busy <;> simp [HostOp.remaining]
  | wr | rd | issue | access => exact List.subset_cons_self _ _

/-- A step takes its turn off the schedule and adds no operation to the program. -/
theorem Stepped.host {p : Params} {s t : State} (h : Stepped p s t) :
    t.host.schedule = s.host.schedule.tail ∧ t.host.program ⊆ s.host.program := by
  cases h with
  | reset | hostIdle | engineIdle | illegal => exact ⟨rfl, List.Subset.refl _⟩
  | hostRead _ op rest _ program => exact ⟨rfl, program ▸ op.remaining_subset s.busy rest⟩
  | hostWrite _ op rest reg v program =>
    obtain ⟨-, -, -, -, -, -, host⟩ := writeReg_keeps reg v s.dropTurn
    exact ⟨congrArg HostSide.schedule host, program ▸ op.remaining_subset s.busy rest⟩
  | completed _ _ _ _ _ _ hc =>
    obtain ⟨-, host, -⟩ := hc.frame
    rw [host]
    exact ⟨rfl, List.Subset.refl _⟩

/-- The engine's step while `BUSY = 1` answers with `BUSY = 0` and leaves the host alone. -/
theorem step_engine_completes {s : State} (turn : s.turn = .engine) (busy : s.busy = true) :
    ∃ t, step s = .next t ∧ completePending exec s.dropTurn = .next t ∧ t.busy = false ∧ t.host = s.dropTurn.host := by
  obtain ⟨t, ht, hcases⟩ := completePending_cases s.dropTurn
  refine ⟨t, (step_engine_busy turn busy).trans ht, ht, ?_⟩
  obtain ⟨-, -, rfl⟩ | ⟨i, -, -, hc⟩ := hcases
  · exact ⟨rfl, rfl⟩
  · obtain ⟨-, host, -, pend⟩ := hc.frame
    exact ⟨by rw [State.busy, pend], host⟩

theorem step_of_conforms {s : State} (conforms : s.HostConforms) : ∃ t, step s = .next t := by
  cases turn : s.turn with
  | reset => exact ⟨_, step_reset turn⟩
  | engine =>
    cases busy : s.busy with
    | true =>
      obtain ⟨t, ht, -⟩ := step_engine_completes turn busy
      exact ⟨t, ht⟩
    | false => exact ⟨s.dropTurn, by rw [step_engine turn, busy]; rfl⟩
  | host =>
    rw [step_host turn]
    obtain ⟨-, h⟩ | ⟨op, rest, program, ⟨target, -⟩ | ⟨reg, -, h⟩ | ⟨reg, v, -, h⟩⟩ := hostStep_cases s.dropTurn
    · exact ⟨_, h⟩
    · have admitted : op.wellFormed = true := conforms op (by rw [show s.host.program = _ from program]; simp)
      have reaches := op.toAccess.target_isSome.trans (op.toAccess_wellFormed admitted)
      rw [target] at reaches
      cases reaches
    · exact ⟨_, h⟩
    · exact ⟨_, h⟩

/-- Settles O54: an admitted access is answered, and what is left of the program was in it before. -/
theorem conformingHostNeverStops : Obligations.ConformingHostNeverStops := by
  intro s conforms
  obtain ⟨t, ht⟩ := step_of_conforms conforms
  obtain ⟨-, program⟩ := (step_cases ht).host
  exact ⟨t, ht, fun op hop => conforms op (program hop)⟩

/-! ### Completion -/

theorem turn_of_schedule {s : State} {turn : Turn} {ts : List Turn} (h : s.host.schedule = turn :: ts) :
    s.turn = turn := by
  rw [State.turn, h]

/-- Settles O55, by induction on the host's turns: each keeps the latch and the configuration, by O10. -/
theorem busyEndsAtTheEngineTurn : Obligations.BusyEndsAtTheEngineTurn := by
  intro m rest s conforms busy schedule
  induction m generalizing s with
  | zero =>
    obtain ⟨u, hu, completes, idle, host⟩ := step_engine_completes (turn_of_schedule schedule) busy
    refine ⟨s, u, rfl, rfl, rfl, (run_next hu).trans rfl, idle, ?_, completes⟩
    rw [host, State.dropTurn_host, schedule]
    rfl
  | succ m ih =>
    have turn : s.turn = .host := turn_of_schedule schedule
    obtain ⟨s', hs', conforms'⟩ := conformingHostNeverStops s conforms
    obtain ⟨active, -, -, -, -, -, latch⟩ := hostTurnLeavesTheEngineAlone s s' turn hs'
    have pend : s'.pend = s.pend := latch busy
    obtain ⟨schedule', -⟩ := (step_cases hs').host
    obtain ⟨t, u, ht, tPend, tActive, hu, idle, uSchedule, completes⟩ :=
      ih s' conforms' (by rw [State.busy, pend]; exact busy) (by rw [schedule', schedule]; rfl)
    exact ⟨t, u, (run_next hs').trans ht, tPend.trans pend, tActive.trans active, (run_next hs').trans hu, idle, uSchedule,
      completes⟩

/-! ### The expansion of `construct` -/

/-- With no turns scheduled the host moves while the block is idle (log entry 3). -/
theorem turn_of_idle {s : State} (schedule : s.host.schedule = []) (idle : s.busy = false) : s.turn = .host := by
  rw [State.turn, schedule]
  simp [idle]

/-- With no turns scheduled the engine moves while the block is busy (70_reset_and_hazards.md R257). -/
theorem turn_of_busy {s : State} (schedule : s.host.schedule = []) (busy : s.busy = true) : s.turn = .engine := by
  rw [State.turn, schedule]
  simp [busy]

/-- `s` with the staging registers `g`, and a host that has the operations `ops` to make, the responses `rs` so far, and no
turns scheduled. -/
def State.hosting (g : Staging) (ops : List HostOp) (rs : List Response) (s : State) : State :=
  { s with staging := g, host := { program := ops, schedule := [], responses := rs } }

/-- The staging registers after a write of `reg`. -/
def Staging.write (reg : Reg) (v : Word) (g : Staging) : Staging :=
  match reg with
  | .cfgN => { g with cfgN := v }
  | .cfgRounds => { g with cfgRounds := v.setWidth 16 }
  | .cfgSeedLo => { g with cfgSeedLo := v }
  | .cfgSeedHi => { g with cfgSeedHi := v }
  | .operand => { g with operand := v }
  | _ => g

/-- A write of a register other than `CMD` and `STATUS` reaches the staging registers at most (10_state.md R23 to R27). -/
theorem writeReg_hosting (s : State) (g : Staging) (ops : List HostOp) (rs : List Response) {reg : Reg} (v : Word)
    (cmd : reg ≠ .cmd) (status : reg ≠ .status) :
    writeReg reg v (s.hosting g ops rs) = s.hosting (g.write reg v) ops rs := by
  cases reg
  case cmd => exact absurd rfl cmd
  case status => exact absurd rfl status
  all_goals rfl

/-- The staging registers after the four writes of `construct` (30_encoding.md R103). -/
def Staging.afterConstruct (n : Word) (seed : Seed) (rounds : Word) (g : Staging) : Staging :=
  (((g.write .cfgN n).write .cfgSeedLo (seed.extractLsb' 0 32)).write .cfgSeedHi (seed.extractLsb' 32 32)).write
    .cfgRounds rounds

section
variable {s : State} {g : Staging} {ops : List HostOp} {rs : List Response} (idle : s.busy = false)
include idle

theorem turn_hosting : (s.hosting g ops rs).turn = .host := turn_of_idle (s := s.hosting g ops rs) rfl idle

theorem step_hosting_wr {reg : Reg} {v : Word} (cmd : reg ≠ .cmd) (status : reg ≠ .status) :
    step (s.hosting g (.wr reg v :: ops) rs) = .next (s.hosting (g.write reg v) ops (.written reg :: rs)) := by
  rw [step_wr (turn_hosting idle) rfl, writeReg_hosting s g _ rs v cmd status]
  rfl

theorem step_hosting_issue {c : Instr} (alive : s.status.fatal = false) :
    step (s.hosting g (.issue c :: ops) rs) = .next ((s.hosting g ops (.written .cmd :: rs)).accept (encode c)) := by
  rw [step_issue (turn_hosting idle) rfl, writeReg,
    offerCommand_idle (s := s.hosting g (.issue c :: ops) rs) alive idle]
  rfl

/-- The host's part of `construct` up to the acceptance of its `CONFIG`. -/
theorem run_construct (alive : s.status.fatal = false) (n : Word) (seed : Seed) (rounds : Word) :
    ∃ rs', ∀ m, core.run (m + 5) (s.hosting g (construct n seed rounds ++ ops) rs) =
      core.run m
        ((s.hosting (g.afterConstruct n seed rounds) (.wait :: ops) rs').accept (encode (.config .staging))) :=
  ⟨.written .cmd :: .written .cfgRounds :: .written .cfgSeedHi :: .written .cfgSeedLo :: .written .cfgN :: rs, fun m =>
    calc core.run (m + 5) (s.hosting g (construct n seed rounds ++ ops) rs)
      _ = core.run (m + 4) _ := run_next (step_hosting_wr idle (by decide) (by decide))
      _ = core.run (m + 3) _ := run_next (step_hosting_wr idle (by decide) (by decide))
      _ = core.run (m + 2) _ := run_next (step_hosting_wr idle (by decide) (by decide))
      _ = core.run (m + 1) _ := run_next (step_hosting_wr idle (by decide) (by decide))
      _ = core.run m _ := run_next (step_hosting_issue idle alive)⟩

end

/-- The state in which a `CONFIG` with S = 0 and valid inputs leaves the block (R177). -/
def State.configured (s : State) : State :=
  ((s.install s.pend.n (kbits s.pend.n) s.pend.rounds s.pend.seed).setIter 0 false).finish .none

/-- From the acceptance of `CONFIG` on: its completion, and a `wait` that finds the block idle. -/
theorem run_config_wait {s : State} {ops : List HostOp} (busy : s.busy = true)
    (word : decode s.pend.cmd = .legal (.config .staging)) (schedule : s.host.schedule = [])
    (program : s.host.program = .wait :: ops) (hn : s.pend.n ≠ 0) (hr : s.pend.rounds ≠ 0) :
    ∃ rs, core.run 2 s = .next { s.dropTurn.configured with
      host := { program := ops, schedule := [], responses := rs } } := by
  have complete : step s = .next s.dropTurn.configured :=
    (step_legal (turn_of_busy schedule busy) busy word).trans (exec_config_valid (s := s.dropTurn) .staging hn hr)
  have unscheduled : s.dropTurn.configured.host.schedule = [] := congrArg List.tail schedule
  have wait := step_hostRead (turn_of_idle unscheduled rfl) (op := .wait) (rest := ops) program rfl
  rw [unscheduled] at wait
  exact ⟨_, (run_next complete).trans ((run_next wait).trans rfl)⟩

/-- Settles O56: four writes, the acceptance of `CONFIG`, its completion, and a `wait` that finds the block idle. -/
theorem constructConfiguresTheBlock : Obligations.ConstructConfiguresTheBlock := by
  intro n rounds seed rest s idle alive schedule program hn hr
  have start : s = s.hosting s.staging (construct n seed rounds ++ rest) s.host.responses := by
    rw [State.hosting, ← program, ← schedule]
  obtain ⟨rs, accepted⟩ := run_construct (g := s.staging) (ops := rest) (rs := s.host.responses) idle alive n seed rounds
  obtain ⟨rs', configured⟩ := run_config_wait
    (s := (s.hosting (s.staging.afterConstruct n seed rounds) (.wait :: rest) rs).accept (encode (.config .staging)))
    rfl (decode_encode _) rfl rfl hn hr
  refine ⟨_, (congrArg (core.run 7) start).trans ((accepted 2).trans configured), rfl, rfl, rfl, rfl, ?_, rfl, rfl, rfl,
    rfl, rfl⟩
  exact (seed_halves _).trans (seed_halves seed)

end Sys2Proof.Machine
end
